-- ==== Sys2Proof/Word.lean ====
section
/-! DEFINITION. The word types of the block (00_scope.md R12, R13): unsigned values of a fixed width,
and the index of a general register. -/

namespace Sys2Proof

/-- A u8: a byte of memory, a general register, a timer. -/
abbrev Byte := BitVec 8

/-- A u16: the instruction word, pc, I, a stack entry. -/
abbrev Word := BitVec 16

/-- A u12: the NNN field (30_encoding.md R101) and FONT_BASE. -/
abbrev Addr := BitVec 12

/-- A four-bit field of the instruction word (R101). -/
abbrev Nibble := BitVec 4

/-- A general register's index, 0 to 15 (10_state.md R31). -/
abbrev Reg := Fin 16

/-- VF, the flag register (00_scope.md R14, 10_state.md R32). -/
abbrev VF : Reg := 15

end Sys2Proof
end

