-- ==== Sys2Proof/Machine/Flags.lean ====
section
/-! DEFINITION. The values VF takes as a flag (10_state.md R33). -/

namespace Sys2Proof.Machine

/-- A flag as a register value: 1 or 0. -/
def flagByte (b : Bool) : Byte := if b then 1 else 0

/-- 8XY4: 1 if the exact sum is above 0xFF (42_alu.md R209). -/
def carryFlag (x y : Byte) : Byte := flagByte (decide (x.toNat + y.toNat > 0xFF))

/-- 8XY5 and 8XY7: 1 if `a - b` borrows nothing, that is a ≥ b (R210, R212). -/
def noBorrowFlag (a b : Byte) : Byte := flagByte (decide (a.toNat ≥ b.toNat))

/-- 8XY6: bit 0 of the shift source (R211). -/
def shiftRightFlag (v : Byte) : Byte := v &&& 1

/-- 8XYE: bit 7 of the shift source (R213). -/
def shiftLeftFlag (v : Byte) : Byte := v >>> 7

/-- DXYN: 1 if a pixel went from on to off (44_display.md R272). -/
def collisionFlag (collision : Bool) : Byte := flagByte collision

end Sys2Proof.Machine
end

