-- ==== Sys2Proof/Syntax.lean ====
section
/-! DEFINITION. The instruction set: one constructor per row of 30_encoding.md R112, in its order, with
the operand fields of R101 and R103. -/

namespace Sys2Proof

/-- The 34 instructions. `x` and `y` are the register fields, `kk` the immediate, `nnn` the address;
`low` is the nibble the decoder ignores in 5XYn and 9XYn (R106), kept so that encoding loses no bit;
`n` of DRW is a count of sprite rows, which `wellFormed` bounds. -/
inductive Instr where
  | cls
  | ret
  | jp (nnn : Addr)
  | call (nnn : Addr)
  | seImm (x : Reg) (kk : Byte)
  | sneImm (x : Reg) (kk : Byte)
  | seReg (x y : Reg) (low : Nibble)
  | ldImm (x : Reg) (kk : Byte)
  | addImm (x : Reg) (kk : Byte)
  | ldReg (x y : Reg)
  | orReg (x y : Reg)
  | andReg (x y : Reg)
  | xorReg (x y : Reg)
  | addReg (x y : Reg)
  | subReg (x y : Reg)
  | shr (x y : Reg)
  | subnReg (x y : Reg)
  | shl (x y : Reg)
  | sneReg (x y : Reg) (low : Nibble)
  | ldI (nnn : Addr)
  | jpV0 (nnn : Addr)
  | rnd (x : Reg) (kk : Byte)
  | drw (x y : Reg) (n : Nat)
  | skp (x : Reg)
  | sknp (x : Reg)
  | ldFromDt (x : Reg)
  | ldKey (x : Reg)
  | ldDt (x : Reg)
  | ldSt (x : Reg)
  | addI (x : Reg)
  | ldFont (x : Reg)
  | ldBcd (x : Reg)
  | stRegs (x : Reg)
  | ldRegs (x : Reg)
  deriving DecidableEq, Repr

/-- The row's mnemonic, as spec/opcode_table.json spells it. -/
def Instr.mnemonic : Instr → String
  | .cls => "CLS"
  | .ret => "RET"
  | .jp _ => "JP_addr"
  | .call _ => "CALL_addr"
  | .seImm _ _ => "SE_Vx__byte"
  | .sneImm _ _ => "SNE_Vx__byte"
  | .seReg _ _ _ => "SE_Vx__Vy"
  | .ldImm _ _ => "LD_Vx__byte"
  | .addImm _ _ => "ADD_Vx__byte"
  | .ldReg _ _ => "LD_Vx__Vy"
  | .orReg _ _ => "OR_Vx__Vy"
  | .andReg _ _ => "AND_Vx__Vy"
  | .xorReg _ _ => "XOR_Vx__Vy"
  | .addReg _ _ => "ADD_Vx__Vy"
  | .subReg _ _ => "SUB_Vx__Vy"
  | .shr _ _ => "SHR_Vx____Vy"
  | .subnReg _ _ => "SUBN_Vx__Vy"
  | .shl _ _ => "SHL_Vx____Vy"
  | .sneReg _ _ _ => "SNE_Vx__Vy"
  | .ldI _ => "LD_I__addr"
  | .jpV0 _ => "JP_V0__addr"
  | .rnd _ _ => "RND_Vx__byte"
  | .drw _ _ _ => "DRW_Vx__Vy__nibble"
  | .skp _ => "SKP_Vx"
  | .sknp _ => "SKNP_Vx"
  | .ldFromDt _ => "LD_Vx__DT"
  | .ldKey _ => "LD_Vx__K"
  | .ldDt _ => "LD_DT__Vx"
  | .ldSt _ => "LD_ST__Vx"
  | .addI _ => "ADD_I__Vx"
  | .ldFont _ => "LD_F__Vx"
  | .ldBcd _ => "LD_B__Vx"
  | .stRegs _ => "LD__I___Vx"
  | .ldRegs _ => "LD_Vx___I"

end Sys2Proof
end

