-- ==== Sys2Proof/WellFormed.lean ====
section
/-! DEFINITION. The operand values the encoding admits (30_encoding.md R103). Register indices,
immediates and addresses are bounded by their types; the sprite height is a count and is bounded
here. -/

namespace Sys2Proof

/-- The one bound the types leave open: N of DXYN is "0 to 15" (R103). -/
def Instr.wellFormed : Instr → Bool
  | .drw _ _ n => decide (n ≤ 15)
  | .cls | .ret | .jp _ | .call _ | .seImm _ _ | .sneImm _ _ | .seReg _ _ _ | .ldImm _ _
  | .addImm _ _ | .ldReg _ _ | .orReg _ _ | .andReg _ _ | .xorReg _ _ | .addReg _ _
  | .subReg _ _ | .shr _ _ | .subnReg _ _ | .shl _ _ | .sneReg _ _ _ | .ldI _ | .jpV0 _
  | .rnd _ _ | .skp _ | .sknp _ | .ldFromDt _ | .ldKey _ | .ldDt _ | .ldSt _ | .addI _
  | .ldFont _ | .ldBcd _ | .stRegs _ | .ldRegs _ => true

end Sys2Proof
end

