-- ==== Sys2Proof/Decode.lean ====
section
/-! DEFINITION. The decoder (30_encoding.md R104 to R107, R112, R120), the opcode table as rows, and
the encoder, written from the formats of R102. -/

namespace Sys2Proof

/-- F = w[15:12], the family nibble (R101). -/
def famOf (w : Word) : Nibble := w.extractLsb' 12 4

/-- X = w[11:8]. -/
def xOf (w : Word) : Reg := (w.extractLsb' 8 4).toFin

/-- Y = w[7:4]. -/
def yOf (w : Word) : Reg := (w.extractLsb' 4 4).toFin

/-- N = w[3:0]. -/
def nOf (w : Word) : Nibble := w.extractLsb' 0 4

/-- KK = w[7:0]. -/
def kkOf (w : Word) : Byte := w.extractLsb' 0 8

/-- NNN = w[11:0]. -/
def nnnOf (w : Word) : Addr := w.extractLsb' 0 12

/-- What a word decodes to: one of the 34 instructions, or Unknown with the raw word (R104). -/
inductive Decoded where
  | instr (i : Instr)
  | unknown (w : Word)
  deriving DecidableEq, Repr

/-- Family 0x0: the whole word selects (R105, R107). -/
def decodeFamily0 (w : Word) : Decoded :=
  match w.toNat with
  | 0x00E0 => .instr .cls
  | 0x00EE => .instr .ret
  | _ => .unknown w

/-- Family 0x8: the N nibble selects (R105). -/
def decodeFamily8 (w : Word) : Decoded :=
  match (nOf w).toNat with
  | 0x0 => .instr (.ldReg (xOf w) (yOf w))
  | 0x1 => .instr (.orReg (xOf w) (yOf w))
  | 0x2 => .instr (.andReg (xOf w) (yOf w))
  | 0x3 => .instr (.xorReg (xOf w) (yOf w))
  | 0x4 => .instr (.addReg (xOf w) (yOf w))
  | 0x5 => .instr (.subReg (xOf w) (yOf w))
  | 0x6 => .instr (.shr (xOf w) (yOf w))
  | 0x7 => .instr (.subnReg (xOf w) (yOf w))
  | 0xE => .instr (.shl (xOf w) (yOf w))
  | _ => .unknown w

/-- Family 0xE: the KK byte selects (R105). -/
def decodeFamilyE (w : Word) : Decoded :=
  match (kkOf w).toNat with
  | 0x9E => .instr (.skp (xOf w))
  | 0xA1 => .instr (.sknp (xOf w))
  | _ => .unknown w

/-- Family 0xF: the KK byte selects (R105). -/
def decodeFamilyF (w : Word) : Decoded :=
  match (kkOf w).toNat with
  | 0x07 => .instr (.ldFromDt (xOf w))
  | 0x0A => .instr (.ldKey (xOf w))
  | 0x15 => .instr (.ldDt (xOf w))
  | 0x18 => .instr (.ldSt (xOf w))
  | 0x1E => .instr (.addI (xOf w))
  | 0x29 => .instr (.ldFont (xOf w))
  | 0x33 => .instr (.ldBcd (xOf w))
  | 0x55 => .instr (.stRegs (xOf w))
  | 0x65 => .instr (.ldRegs (xOf w))
  | _ => .unknown w

/-- `decode(word)`, total over all 65536 words (R104): the family nibble selects, and families 0, 8, E
and F look further (R105). The last arm is no nibble's. -/
def decode (w : Word) : Decoded :=
  match (famOf w).toNat with
  | 0x0 => decodeFamily0 w
  | 0x1 => .instr (.jp (nnnOf w))
  | 0x2 => .instr (.call (nnnOf w))
  | 0x3 => .instr (.seImm (xOf w) (kkOf w))
  | 0x4 => .instr (.sneImm (xOf w) (kkOf w))
  | 0x5 => .instr (.seReg (xOf w) (yOf w) (nOf w))
  | 0x6 => .instr (.ldImm (xOf w) (kkOf w))
  | 0x7 => .instr (.addImm (xOf w) (kkOf w))
  | 0x8 => decodeFamily8 w
  | 0x9 => .instr (.sneReg (xOf w) (yOf w) (nOf w))
  | 0xA => .instr (.ldI (nnnOf w))
  | 0xB => .instr (.jpV0 (nnnOf w))
  | 0xC => .instr (.rnd (xOf w) (kkOf w))
  | 0xD => .instr (.drw (xOf w) (yOf w) (nOf w).toNat)
  | 0xE => decodeFamilyE w
  | 0xF => decodeFamilyF w
  | _ => .unknown w

/-- The word of two bytes, high byte first (20_memory.md R76). -/
def wordOfBytes (hi lo : Byte) : Word := hi ++ lo

/-- The high byte of a word, the one at the lower address (R76). -/
def hiByte (w : Word) : Byte := w.extractLsb' 8 8

/-- The low byte of a word (R76). -/
def loByte (w : Word) : Byte := w.extractLsb' 0 8

/-- Why a sequence of bytes is no instruction: too short for a word, or an Unknown word. -/
inductive DecodeError where
  | truncated
  | unknown (w : Word)
  deriving DecidableEq, Repr

/-- The instruction at the front of a byte sequence and the bytes after it: always two bytes, high
byte first (R100). -/
def decodeBytes : List Byte → Except DecodeError (Instr × List Byte)
  | hi :: lo :: rest =>
    match decode (wordOfBytes hi lo) with
    | .instr i => .ok (i, rest)
    | .unknown w => .error (.unknown w)
  | _ => .error .truncated

/-- One row of R112's table: a word matches it when its masked bits are `pattern`. -/
structure OpcodeRow where
  mnemonic : String
  mask     : Word
  pattern  : Word
  deriving DecidableEq, Repr

def OpcodeRow.matchesWord (r : OpcodeRow) (w : Word) : Bool := w &&& r.mask == r.pattern

/-- Rows 1 to 12 of R112. -/
def opcodeRowsA : List OpcodeRow :=
  [⟨"CLS", 0xFFFF, 0x00E0⟩, ⟨"RET", 0xFFFF, 0x00EE⟩, ⟨"JP_addr", 0xF000, 0x1000⟩,
   ⟨"CALL_addr", 0xF000, 0x2000⟩, ⟨"SE_Vx__byte", 0xF000, 0x3000⟩,
   ⟨"SNE_Vx__byte", 0xF000, 0x4000⟩, ⟨"SE_Vx__Vy", 0xF000, 0x5000⟩,
   ⟨"LD_Vx__byte", 0xF000, 0x6000⟩, ⟨"ADD_Vx__byte", 0xF000, 0x7000⟩,
   ⟨"LD_Vx__Vy", 0xF00F, 0x8000⟩, ⟨"OR_Vx__Vy", 0xF00F, 0x8001⟩, ⟨"AND_Vx__Vy", 0xF00F, 0x8002⟩]

/-- Rows 13 to 23 of R112. -/
def opcodeRowsB : List OpcodeRow :=
  [⟨"XOR_Vx__Vy", 0xF00F, 0x8003⟩, ⟨"ADD_Vx__Vy", 0xF00F, 0x8004⟩, ⟨"SUB_Vx__Vy", 0xF00F, 0x8005⟩,
   ⟨"SHR_Vx____Vy", 0xF00F, 0x8006⟩, ⟨"SUBN_Vx__Vy", 0xF00F, 0x8007⟩,
   ⟨"SHL_Vx____Vy", 0xF00F, 0x800E⟩, ⟨"SNE_Vx__Vy", 0xF000, 0x9000⟩, ⟨"LD_I__addr", 0xF000, 0xA000⟩,
   ⟨"JP_V0__addr", 0xF000, 0xB000⟩, ⟨"RND_Vx__byte", 0xF000, 0xC000⟩,
   ⟨"DRW_Vx__Vy__nibble", 0xF000, 0xD000⟩]

/-- Rows 24 to 34 of R112. -/
def opcodeRowsC : List OpcodeRow :=
  [⟨"SKP_Vx", 0xF0FF, 0xE09E⟩, ⟨"SKNP_Vx", 0xF0FF, 0xE0A1⟩, ⟨"LD_Vx__DT", 0xF0FF, 0xF007⟩,
   ⟨"LD_Vx__K", 0xF0FF, 0xF00A⟩, ⟨"LD_DT__Vx", 0xF0FF, 0xF015⟩, ⟨"LD_ST__Vx", 0xF0FF, 0xF018⟩,
   ⟨"ADD_I__Vx", 0xF0FF, 0xF01E⟩, ⟨"LD_F__Vx", 0xF0FF, 0xF029⟩, ⟨"LD_B__Vx", 0xF0FF, 0xF033⟩,
   ⟨"LD__I___Vx", 0xF0FF, 0xF055⟩, ⟨"LD_Vx___I", 0xF0FF, 0xF065⟩]

/-- The opcode map of R112. -/
def opcodeRows : List OpcodeRow := opcodeRowsA ++ opcodeRowsB ++ opcodeRowsC

/-- A register index as the nibble that names it. -/
def regBits (x : Reg) : Nibble := BitVec.ofNat 4 x.val

/-- Format `addr`: `ffffnnnnnnnnnnnn` (R102). -/
def wordAddr (f : Nibble) (nnn : Addr) : Word := f ++ nnn

/-- Formats `reg_imm` and `reg_op`: `ffffxxxxkkkkkkkk` (R102). -/
def wordRegByte (f : Nibble) (x : Reg) (kk : Byte) : Word := (f ++ regBits x) ++ kk

/-- Formats `reg_reg` and `draw`: `ffffxxxxyyyyssss` (R102). -/
def wordRegReg (f : Nibble) (x y : Reg) (s : Nibble) : Word := ((f ++ regBits x) ++ regBits y) ++ s

/-- The word of an instruction (R102, R112). An ill-formed sprite height loses its high bits. -/
def encode : Instr → Word
  | .cls => 0x00E0
  | .ret => 0x00EE
  | .jp nnn => wordAddr 0x1 nnn
  | .call nnn => wordAddr 0x2 nnn
  | .seImm x kk => wordRegByte 0x3 x kk
  | .sneImm x kk => wordRegByte 0x4 x kk
  | .seReg x y low => wordRegReg 0x5 x y low
  | .ldImm x kk => wordRegByte 0x6 x kk
  | .addImm x kk => wordRegByte 0x7 x kk
  | .ldReg x y => wordRegReg 0x8 x y 0x0
  | .orReg x y => wordRegReg 0x8 x y 0x1
  | .andReg x y => wordRegReg 0x8 x y 0x2
  | .xorReg x y => wordRegReg 0x8 x y 0x3
  | .addReg x y => wordRegReg 0x8 x y 0x4
  | .subReg x y => wordRegReg 0x8 x y 0x5
  | .shr x y => wordRegReg 0x8 x y 0x6
  | .subnReg x y => wordRegReg 0x8 x y 0x7
  | .shl x y => wordRegReg 0x8 x y 0xE
  | .sneReg x y low => wordRegReg 0x9 x y low
  | .ldI nnn => wordAddr 0xA nnn
  | .jpV0 nnn => wordAddr 0xB nnn
  | .rnd x kk => wordRegByte 0xC x kk
  | .drw x y n => wordRegReg 0xD x y (BitVec.ofNat 4 n)
  | .skp x => wordRegByte 0xE x 0x9E
  | .sknp x => wordRegByte 0xE x 0xA1
  | .ldFromDt x => wordRegByte 0xF x 0x07
  | .ldKey x => wordRegByte 0xF x 0x0A
  | .ldDt x => wordRegByte 0xF x 0x15
  | .ldSt x => wordRegByte 0xF x 0x18
  | .addI x => wordRegByte 0xF x 0x1E
  | .ldFont x => wordRegByte 0xF x 0x29
  | .ldBcd x => wordRegByte 0xF x 0x33
  | .stRegs x => wordRegByte 0xF x 0x55
  | .ldRegs x => wordRegByte 0xF x 0x65

/-- The bytes of an instruction in memory order. -/
def encodeBytes (i : Instr) : List Byte := [hiByte (encode i), loByte (encode i)]

/-- The first instruction word of `w`, whose bits are numbered as spec/opcode_table.json numbers them;
bits above `nbits` are 0. -/
def tableWord (nbits w : Nat) : Word := BitVec.ofNat 16 (w % 2 ^ nbits)

/-- The instruction the decoder reads from a table word laid out in memory order. -/
def decodeTableWord (nbits w : Nat) : Option Instr :=
  match decodeBytes [hiByte (tableWord nbits w), loByte (tableWord nbits w)] with
  | .ok (i, _) => some i
  | .error _ => none

end Sys2Proof
end

