-- ==== Sys2Proof/Config.lean ====
section
/-! DEFINITION. The parameters of 00_scope.md R10, fixed at construction (60_exceptions.md R361, D31),
and the one free value of the spec: the byte CXKK draws. -/

namespace Sys2Proof

/-- SHIFT_QUIRK: which register SHR and SHL shift (42_alu.md R214). The spec gives no default. -/
inductive ShiftQuirk where
  | legacy
  | modern
  deriving DecidableEq, Repr

/-- UNKNOWN_POLICY: what executing an Unknown word does (30_encoding.md R121). -/
inductive UnknownPolicy where
  | fatal
  | nop
  deriving DecidableEq, Repr

/-- CYCLE_LATENCY: "instructions per second, or a delay per instruction" (R10). No rule reads it (R11). -/
inductive CycleLatency where
  | instructionsPerSecond (n : Nat)
  | delayPerInstruction (n : Nat)
  deriving DecidableEq, Repr

/-- The constructor-time parameters of R10, but for RNG, which is `Config.randomByte`. -/
structure Config where
  shiftQuirk    : ShiftQuirk
  unknownPolicy : UnknownPolicy
  cycleLatency  : CycleLatency
  fontBase      : Addr
  fontBytes     : Vector Byte 80
  deriving DecidableEq, Repr

/-- The constraint the spec puts on FONT_BASE: the font lies in the reserved range
(20_memory.md R81). -/
abbrev Config.wf (c : Config) : Prop := c.fontBase.toNat + 80 ≤ 0x200

/-- RNG: the `n`-th byte drawn is a free value (00_scope.md R16, 42_alu.md R215, D21), so nothing is
known of it and a claim holds for every draw (log 3). -/
opaque Config.randomByte : Nat → Byte

end Sys2Proof
end

