-- ==== Sys2Proof/Machine/Params.lean ====
section
/-! DEFINITION. The parameter values State.reset is built with, the reset contents of memory without a
program (10_state.md R50), and the fixed bounds of 00_scope.md R9. -/

namespace Sys2Proof.Machine

/-- The highest address: memory is 4096 bytes (20_memory.md R70). -/
def topAddress : Nat := 0xFFF

/-- The program load address and the initial pc (00_scope.md R9). -/
def loadAddress : Nat := 0x200

/-- The longest program: 4096 - 0x200 = 3584 bytes (R9, 60_exceptions.md R331, C1). -/
def maxProgramLength : Nat := 3584

/-- The depth of the call stack (10_state.md R39). -/
def maxStackDepth : Nat := 16

/-- The default FONT_BYTES: the table of 20_memory.md R80, glyph after glyph, top row first. -/
def defaultFontBytes : Vector Byte 80 :=
  #v[0xF0, 0x90, 0x90, 0x90, 0xF0,  0x20, 0x60, 0x20, 0x20, 0x70,
     0xF0, 0x10, 0xF0, 0x80, 0xF0,  0xF0, 0x10, 0xF0, 0x10, 0xF0,
     0x90, 0x90, 0xF0, 0x10, 0x10,  0xF0, 0x80, 0xF0, 0x10, 0xF0,
     0xF0, 0x80, 0xF0, 0x90, 0xF0,  0xF0, 0x10, 0x20, 0x40, 0x40,
     0xF0, 0x90, 0xF0, 0x90, 0xF0,  0xF0, 0x90, 0xF0, 0x10, 0xF0,
     0xF0, 0x90, 0xF0, 0x90, 0x90,  0xE0, 0x90, 0xE0, 0x90, 0xE0,
     0xF0, 0x80, 0x80, 0x80, 0xF0,  0xE0, 0x90, 0x90, 0x90, 0xE0,
     0xF0, 0x80, 0xF0, 0x80, 0xF0,  0xF0, 0x80, 0xF0, 0x80, 0x80]

/-- The parameters State.reset is constructed with: the conventions of 95_test_vectors.md.
SHIFT_QUIRK, CYCLE_LATENCY and FONT_BASE have no default in the spec; DESIGN CHOICE, unsafe (log 2). -/
def resetConfig : Config where
  shiftQuirk    := .modern
  unknownPolicy := .fatal
  cycleLatency  := .delayPerInstruction 0
  fontBase      := 0x000
  fontBytes     := defaultFontBytes

/-- What an address reads as before anything is written to it: the font at FONT_BASE .. FONT_BASE + 79,
0x00 elsewhere (10_state.md R50, D6; 70_reset_and_hazards.md R380). -/
def resetByte (c : Config) (a : Nat) : Byte :=
  if h : c.fontBase.toNat ≤ a ∧ a - c.fontBase.toNat < 80 then
    c.fontBytes[a - c.fontBase.toNat]'h.2
  else 0x00

end Sys2Proof.Machine
end

