-- ==== Sys2Proof/Machine/State.lean ====
section
/-! DEFINITION. The state of the block (10_state.md R30), the reasons a step can stop, and the state after
reset (R50). -/

namespace Sys2Proof.Machine

/-- The five error kinds (60_exceptions.md R330). -/
inductive ErrorKind where
  | memoryLoadOverflow
  | stackOverflow
  | stackUnderflow
  | unknownOpcode
  | outOfBoundsAddress
  deriving DecidableEq, Repr

/-- The code R330 gives a kind (D23). -/
def ErrorKind.code : ErrorKind → Nat
  | .memoryLoadOverflow => 1
  | .stackOverflow => 2
  | .stackUnderflow => 3
  | .unknownOpcode => 4
  | .outOfBoundsAddress => 5

/-- `E(info)`: an error kind with the information its raise names (R330, 00_scope.md R14; log 7). -/
inductive Error where
  | memoryLoadOverflow (length : Nat)
  | stackOverflow
  | stackUnderflow
  | unknownOpcode (word : Word)
  | outOfBoundsAddress (address : Nat)
  deriving DecidableEq, Repr

def Error.kind : Error → ErrorKind
  | .memoryLoadOverflow _ => .memoryLoadOverflow
  | .stackOverflow => .stackOverflow
  | .stackUnderflow => .stackUnderflow
  | .unknownOpcode _ => .unknownOpcode
  | .outOfBoundsAddress _ => .outOfBoundsAddress

/-- The halt record (10_state.md R46, 60_exceptions.md R334): the error, the address the cycle fetched
from, and the instruction word, none if the fetch itself failed. -/
structure HaltRecord where
  error   : Error
  faultPc : Word
  word    : Option Word
  deriving DecidableEq, Repr

/-- The engine's status between cycles (10_state.md R45). -/
inductive Status where
  | running
  | halted (r : HaltRecord)
  deriving DecidableEq, Repr

/-- The steps of the timer driver and the host (60_exceptions.md R357). -/
inductive HostStep where
  | tick
  | keyUpdate (k : BitVec 16)
  | snapshot
  | audioPoll
  deriving DecidableEq, Repr

/-- One turn of the block: the engine's Cycle, or a host step (R357). -/
inductive Turn where
  | cycle
  | host (h : HostStep)
  deriving DecidableEq, Repr

/-- Memory: the bytes that differ from the reset contents, by rising address (log 8). -/
abbrev Memory := List Host.Cell

/-- The display buffer: 32 rows of 64 pixels; bit x of row y is column x, 1 is on (10_state.md R43). -/
abbrev Display := Vector (BitVec 64) 32

/-- The architectural state of R30, under the spec's names, then three fields of the model's own: the
parameters (log 1), the count of random draws (log 3) and the turns that come next (log 4). -/
structure State where
  mem      : Memory
  V        : Vector Byte 16
  I        : Word
  pc       : Word
  S        : List Word
  DT       : Byte
  ST       : Byte
  disp     : Display
  keys     : BitVec 16
  status   : Status
  cfg      : Config
  draws    : Nat
  schedule : List Turn
  deriving DecidableEq, Repr

/-- Why the machine stops. -/
inductive Fault where
  /-- Raised by `cycle` alone, when a cycle is due and status is Halted: "no cycle runs" (40_cycle.md
  R147). It carries the halt record the host receives (60_exceptions.md R365). Safe (log 5). -/
  | halted (r : HaltRecord)
  deriving DecidableEq, Repr

/-- Why an instruction has no meaning. -/
inductive Refusal where
  /-- An arm of `exec` that has no meaning yet; no arm raises it in this model. Safe. -/
  | notModelled (mnemonic : String)
  deriving DecidableEq, Repr

/-- What a meaning answers. -/
abbrev Result := Host.Outcome State Fault Refusal

/-- Every component at its value after initialization with an empty program (R50), for given
parameters. -/
def State.resetWith (c : Config) : State where
  mem      := []
  V        := Vector.replicate 16 0x00
  I        := 0x0000
  pc       := 0x0200
  S        := []
  DT       := 0x00
  ST       := 0x00
  disp     := Vector.replicate 32 0
  keys     := 0x0000
  status   := .running
  cfg      := c
  draws    := 0
  schedule := []

/-- The machine right after reset: construction with an empty program (70_reset_and_hazards.md R380,
R381) and the parameters of log 2. -/
def State.reset : State := State.resetWith resetConfig

end Sys2Proof.Machine
end

