-- ==== Sys2Proof/Machine/Ops.lean ====
section
/-! DEFINITION. The named operations over memory, registers, stack and display, and the one way an error
is raised (60_exceptions.md R334). -/

namespace Sys2Proof.Machine

/-! ### Memory (20_memory.md) -/

/-- The byte at an address; an unlisted address reads as `d` says. -/
def Memory.read (d : Nat → Byte) : Memory → Nat → Byte
  | [], a => d a
  | (b, w) :: m, a => if a = b then w else Memory.read d m a

/-- Memory with one byte set, in canonical form. -/
def Memory.write (d : Nat → Byte) : Memory → Nat → Byte → Memory
  | [], a, v => if v = d a then [] else [(a, v)]
  | (b, w) :: m, a, v =>
    if a < b then (if v = d a then (b, w) :: m else (a, v) :: (b, w) :: m)
    else if a = b then (if v = d a then m else (a, v) :: m)
    else (b, w) :: Memory.write d m a v

/-- The canonical form: addresses strictly rising and inside memory, and no entry equal to what an
unlisted address reads as. -/
abbrev Memory.wf (d : Nat → Byte) (m : Memory) : Prop :=
  m.Pairwise (fun p q => p.1 < q.1) ∧ ∀ p ∈ m, p.1 ≤ topAddress ∧ p.2 ≠ d p.1

/-- The byte at an address, mem[a]. -/
def State.byte (s : State) (a : Nat) : Byte := Memory.read (resetByte s.cfg) s.mem a

/-- mem[a] <- v, with no check of the address. -/
def State.setByte (s : State) (a : Nat) (v : Byte) : State :=
  { s with mem := Memory.write (resetByte s.cfg) s.mem a v }

/-- MemRead(a, 1): an address above 0xFFF raises (R71, R73). -/
def State.memRead (s : State) (a : Nat) : Except Error Byte :=
  if a ≤ topAddress then .ok (s.byte a) else .error (.outOfBoundsAddress a)

/-- MemWrite(a, 1, v): an address above 0xFFF raises and changes nothing (R71, R73). -/
def State.memWrite (s : State) (a : Nat) (v : Byte) : Except Error State :=
  if a ≤ topAddress then .ok (s.setByte a v) else .error (.outOfBoundsAddress a)

/-! ### General registers (10_state.md R31) -/

/-- V[x]. -/
def State.reg (s : State) (x : Reg) : Byte := s.V.get x

/-- V[x] <- v. -/
def State.setReg (s : State) (x : Reg) (v : Byte) : State := { s with V := s.V.set x.val v x.isLt }

/-- A result into V[x] and then a flag into VF, both computed beforehand (42_alu.md R207, D14). -/
def State.setRegFlag (s : State) (x : Reg) (v flag : Byte) : State := (s.setReg x v).setReg VF flag

/-- The registers V0 to VX in ascending order (43_index_memory.md R244). -/
def regsUpTo (x : Reg) : List Reg := (List.finRange 16).take (x.val + 1)

/-! ### Sequences of accesses, in ascending address order (43_index_memory.md, D13) -/

/-- What a sequence of accesses leaves: the state with every access before the first raise made, and the
error of that raise, if any (60_exceptions.md R335). -/
abbrev Accesses := State × Option Error

/-- Writes bytes at `a`, `a + 1`, …, up to the first that raises. -/
def State.storeBytes (s : State) (a : Nat) : List Byte → Accesses
  | [] => (s, none)
  | v :: vs =>
    match s.memWrite a v with
    | .ok t => t.storeBytes (a + 1) vs
    | .error e => (s, some e)

/-- Loads registers from `a`, `a + 1`, …, up to the first read that raises. -/
def State.loadRegs (s : State) (a : Nat) : List Reg → Accesses
  | [] => (s, none)
  | x :: xs =>
    match s.memRead a with
    | .ok v => (s.setReg x v).loadRegs (a + 1) xs
    | .error e => (s, some e)

/-- Reads `n` bytes at `a`, `a + 1`, …, or raises at the first address that is out of bounds. -/
def State.readBytes (s : State) (a : Nat) : Nat → Except Error (List Byte)
  | 0 => .ok []
  | n + 1 =>
    match s.memRead a with
    | .error e => .error e
    | .ok v =>
      match s.readBytes (a + 1) n with
      | .error e => .error e
      | .ok vs => .ok (v :: vs)

/-! ### Raising an error (60_exceptions.md R334) -/

/-- Halt entry: status takes the record and nothing else changes. There is no return from it (R337). -/
def State.raise (s : State) (e : Error) (faultPc : Word) (word : Option Word) : State :=
  { s with status := .halted { error := e, faultPc := faultPc, word := word } }

/-- A raise inside the execution of a word: pc already holds the instruction's address plus 2
(40_cycle.md R141), so the address the cycle fetched from is pc - 2 (log 6). -/
def State.raiseIn (s : State) (w : Word) (e : Error) : State := s.raise e (s.pc - 2) (some w)

/-- The end of an instruction that makes accesses: it completes, or halts at its raise with every earlier
write kept (R335). The record's word is the instruction's own (log 6). -/
def finish (i : Instr) : Accesses → Result
  | (s, none) => .next s
  | (s, some e) => .next (s.raiseIn (encode i) e)

/-! ### The program counter and the stack (10_state.md R34, R39, R40) -/

/-- A taken skip adds exactly 2 to pc (41_control_flow.md R177). -/
def State.skipIf (s : State) (b : Bool) : State := if b then { s with pc := s.pc + 2 } else s

/-- push(a): StackOverflow when the stack is full (R40; log 13). -/
def State.push (s : State) (a : Word) : Except Error State :=
  if s.S.length < maxStackDepth then .ok { s with S := s.S ++ [a] } else .error .stackOverflow

/-- pop(): the last element and the state without it, StackUnderflow when the stack is empty (R40). -/
def State.pop (s : State) : Except Error (Word × State) :=
  match s.S.getLast? with
  | some a => .ok (a, { s with S := s.S.dropLast })
  | none => .error .stackUnderflow

/-! ### The display buffer (44_display.md) -/

/-- disp[px][py]. -/
def Display.pixel (d : Display) (px : Fin 64) (py : Fin 32) : Bool := (d.get py).getLsbD px.val

/-- disp[px][py] <- disp[px][py] ^ 1. -/
def Display.toggle (d : Display) (px : Fin 64) (py : Fin 32) : Display :=
  d.set py.val (d.get py ^^^ BitVec.twoPow 64 px.val) py.isLt

/-- Every pixel off (R270). -/
def Display.clear : Display := Vector.replicate 32 0

/-- The column of sprite column `c`: (x + c) mod 64 (R271, R274). -/
def spriteColumn (x : Byte) (c : Nat) : Fin 64 := Fin.ofNat 64 (x.toNat + c)

/-- The row of sprite row `k`: (y + k) mod 32 (R271, R274). -/
def spriteRow (y : Byte) (k : Nat) : Fin 32 := Fin.ofNat 32 (y.toNat + k)

/-- The sprite bit of column `c` of a row byte: bit 7 is the leftmost (R273). -/
def spriteBit (b : Byte) (c : Nat) : Bool := b.getLsbD (7 - c)

/-- One pixel of the plot: toggled, and a collision if it was on (R271). -/
def plotPixel (px : Fin 64) (py : Fin 32) (acc : Display × Bool) : Display × Bool :=
  (Display.toggle acc.1 px py, acc.2 || Display.pixel acc.1 px py)

/-- The columns `c` of one sprite row, plotted from left to right on display row `py`. -/
def plotColumns (x : Byte) (py : Fin 32) (b : Byte) : List Nat → Display × Bool → Display × Bool
  | [], acc => acc
  | c :: cs, acc =>
    plotColumns x py b cs (if spriteBit b c then plotPixel (spriteColumn x c) py acc else acc)

/-- The sprite rows `k`, `k + 1`, …, from top to bottom. -/
def plotRows (x y : Byte) : Nat → List Byte → Display × Bool → Display × Bool
  | _, [], acc => acc
  | k, b :: bs, acc =>
    plotRows x y (k + 1) bs (plotColumns x (spriteRow y k) b [0, 1, 2, 3, 4, 5, 6, 7] acc)

/-- plot_sprite(x, y, b): the display after the XOR plot, and whether a pixel went from on to off
(R271). -/
def plotSprite (x y : Byte) (bs : List Byte) (d : Display) : Display × Bool :=
  plotRows x y 0 bs (d, false)

end Sys2Proof.Machine
end

