-- ==== Sys2Proof/Machine/Operands.lean ====
section
/-! DEFINITION. The operands an instruction derives from its fields and the state. -/

namespace Sys2Proof.Machine

/-- ShiftSource(X, Y): V[Y] under legacy, V[X] under modern (42_alu.md R214, D16). -/
def State.shiftSource (s : State) (x y : Reg) : Byte :=
  match s.cfg.shiftQuirk with
  | .legacy => s.reg y
  | .modern => s.reg x

/-- The key a register names: the low 4 bits of its value (45_keys_timers.md R300, D20). -/
def keyIndex (v : Byte) : Fin 16 := Fin.ofNat 16 v.toNat

/-- keys[k]: bit k, 1 for pressed (60_exceptions.md R363). -/
def State.keyPressed (s : State) (k : Fin 16) : Bool := s.keys.getLsbD k.val

/-- The lowest-numbered pressed key, if any is pressed (45_keys_timers.md R303, D19). -/
def State.lowestKey (s : State) : Option (Fin 16) := (List.finRange 16).find? s.keyPressed

/-- A key's number as a register value (R304). -/
def keyByte (k : Fin 16) : Byte := BitVec.ofNat 8 k.val

/-- FONT_BASE + 5 * (v & 0x0F): the address of a glyph (43_index_memory.md R242). -/
def glyphAddress (c : Config) (v : Byte) : Word :=
  BitVec.ofNat 16 (c.fontBase.toNat + 5 * (v.toNat % 16))

/-- The decimal digits of a byte: hundreds, tens, ones (43_index_memory.md R243). -/
def bcdDigits (v : Byte) : List Byte :=
  [BitVec.ofNat 8 (v.toNat / 100), BitVec.ofNat 8 (v.toNat / 10 % 10), BitVec.ofNat 8 (v.toNat % 10)]

/-- zext_16(NNN) (30_encoding.md R103). -/
def zextAddr (nnn : Addr) : Word := nnn.setWidth 16

/-- V[0] + NNN, at most 0x10FE, without masking (41_control_flow.md R178, D10). -/
def State.offsetTarget (s : State) (nnn : Addr) : Word := BitVec.ofNat 16 ((s.reg 0).toNat + nnn.toNat)

/-- RandomByte(): the next draw (00_scope.md R16; log 3). -/
def State.nextDraw (s : State) : Byte := Config.randomByte s.draws

end Sys2Proof.Machine
end

