-- ==== Sys2Proof/Machine/Alu.lean ====
section
/-! DEFINITION. Register arithmetic, logic, shifts and random (42_alu.md). Every operand is read before
anything is written (00_scope.md R15, R207). -/

namespace Sys2Proof.Machine

/-- 6XKK LD Vx, byte (R201). -/
def execLdImm (x : Reg) (kk : Byte) (s : State) : Result := .next (s.setReg x kk)

/-- 7XKK ADD Vx, byte: 8-bit wraparound, no flag (R202). -/
def execAddImm (x : Reg) (kk : Byte) (s : State) : Result := .next (s.setReg x (s.reg x + kk))

/-- 8XY0 LD Vx, Vy (R203). -/
def execLdReg (x y : Reg) (s : State) : Result := .next (s.setReg x (s.reg y))

/-- 8XY1 OR Vx, Vy, no flag (R204, D15). -/
def execOrReg (x y : Reg) (s : State) : Result := .next (s.setReg x (s.reg x ||| s.reg y))

/-- 8XY2 AND Vx, Vy, no flag (R205, D15). -/
def execAndReg (x y : Reg) (s : State) : Result := .next (s.setReg x (s.reg x &&& s.reg y))

/-- 8XY3 XOR Vx, Vy, no flag (R206, D15). -/
def execXorReg (x y : Reg) (s : State) : Result := .next (s.setReg x (s.reg x ^^^ s.reg y))

/-- 8XY4 ADD Vx, Vy: VF is the carry (R209). -/
def execAddReg (x y : Reg) (s : State) : Result :=
  .next (s.setRegFlag x (s.reg x + s.reg y) (carryFlag (s.reg x) (s.reg y)))

/-- 8XY5 SUB Vx, Vy: V[X] - V[Y], VF is NOT borrow (R210). -/
def execSubReg (x y : Reg) (s : State) : Result :=
  .next (s.setRegFlag x (s.reg x - s.reg y) (noBorrowFlag (s.reg x) (s.reg y)))

/-- 8XY6 SHR Vx {, Vy}: VF is the bit shifted out (R211). -/
def execShr (x y : Reg) (s : State) : Result :=
  .next (s.setRegFlag x (s.shiftSource x y >>> 1) (shiftRightFlag (s.shiftSource x y)))

/-- 8XY7 SUBN Vx, Vy: V[Y] - V[X] into V[X], VF is NOT borrow (R212). -/
def execSubnReg (x y : Reg) (s : State) : Result :=
  .next (s.setRegFlag x (s.reg y - s.reg x) (noBorrowFlag (s.reg y) (s.reg x)))

/-- 8XYE SHL Vx {, Vy}: VF is the bit shifted out (R213). -/
def execShl (x y : Reg) (s : State) : Result :=
  .next (s.setRegFlag x (s.shiftSource x y <<< 1) (shiftLeftFlag (s.shiftSource x y)))

/-- CXKK RND Vx, byte: a fresh draw under a mask (R215). -/
def execRnd (x : Reg) (kk : Byte) (s : State) : Result :=
  .next { s.setReg x (s.nextDraw &&& kk) with draws := s.draws + 1 }

end Sys2Proof.Machine
end

