-- ==== Sys2Proof/Machine/ControlFlow.lean ====
section
/-! DEFINITION. Return, jump, call and skip (41_control_flow.md). Every meaning runs with pc = a + 2. -/

namespace Sys2Proof.Machine

/-- 00EE RET (R170). -/
def execRet (s : State) : Result :=
  match s.pop with
  | .ok (a, t) => .next { t with pc := a }
  | .error e => .next (s.raiseIn (encode .ret) e)

/-- 1NNN JP addr (R171). -/
def execJp (nnn : Addr) (s : State) : Result := .next { s with pc := zextAddr nnn }

/-- 2NNN CALL addr (R172): the pushed value is pc, the address of the instruction after the call. -/
def execCall (nnn : Addr) (s : State) : Result :=
  match s.push s.pc with
  | .ok t => .next { t with pc := zextAddr nnn }
  | .error e => .next (s.raiseIn (encode (.call nnn)) e)

/-- 3XKK SE Vx, byte (R173). -/
def execSeImm (x : Reg) (kk : Byte) (s : State) : Result := .next (s.skipIf (s.reg x == kk))

/-- 4XKK SNE Vx, byte (R174). -/
def execSneImm (x : Reg) (kk : Byte) (s : State) : Result := .next (s.skipIf (s.reg x != kk))

/-- 5XYn SE Vx, Vy, whatever n is (R175). -/
def execSeReg (x y : Reg) (s : State) : Result := .next (s.skipIf (s.reg x == s.reg y))

/-- 9XYn SNE Vx, Vy, whatever n is (R176). -/
def execSneReg (x y : Reg) (s : State) : Result := .next (s.skipIf (s.reg x != s.reg y))

/-- BNNN JP V0, addr (R178). -/
def execJpV0 (nnn : Addr) (s : State) : Result := .next { s with pc := s.offsetTarget nnn }

end Sys2Proof.Machine
end

