-- ==== Sys2Proof/Machine/DisplayOps.lean ====
section
/-! DEFINITION. Clear and draw (44_display.md). -/

namespace Sys2Proof.Machine

/-- 00E0 CLS (R270). -/
def execCls (s : State) : Result := .next { s with disp := Display.clear }

/-- DXYN DRW Vx, Vy, nibble: every byte is read before any pixel or VF changes, and VF is the collision
(R272). -/
def execDrw (x y : Reg) (n : Nat) (s : State) : Result :=
  match s.readBytes s.I.toNat n with
  | .error e => .next (s.raiseIn (encode (.drw x y n)) e)
  | .ok bs =>
    let plotted := plotSprite (s.reg x) (s.reg y) bs s.disp
    .next ({ s with disp := plotted.1 }.setReg VF (collisionFlag plotted.2))

end Sys2Proof.Machine
end

