-- ==== Sys2Proof/Machine/IndexMemory.lean ====
section
/-! DEFINITION. The index register and memory transfer (43_index_memory.md). Addresses I + k are exact
naturals and do not wrap (R246). -/

namespace Sys2Proof.Machine

/-- ANNN LD I, addr (R240). -/
def execLdI (nnn : Addr) (s : State) : Result := .next { s with I := zextAddr nnn }

/-- FX1E ADD I, Vx: modulo 2^16, no flag, no check (R241, D11). -/
def execAddI (x : Reg) (s : State) : Result := .next { s with I := s.I + (s.reg x).setWidth 16 }

/-- FX29 LD F, Vx (R242). -/
def execLdFont (x : Reg) (s : State) : Result := .next { s with I := glyphAddress s.cfg (s.reg x) }

/-- FX33 LD B, Vx: hundreds, tens, ones at I, I + 1, I + 2 (R243). -/
def execLdBcd (x : Reg) (s : State) : Result :=
  finish (.ldBcd x) (s.storeBytes s.I.toNat (bcdDigits (s.reg x)))

/-- FX55 LD [I], Vx: V0 to VX at I .. I + X; I is unchanged (R244, D12). -/
def execStRegs (x : Reg) (s : State) : Result :=
  finish (.stRegs x) (s.storeBytes s.I.toNat ((regsUpTo x).map s.reg))

/-- FX65 LD Vx, [I]: V0 to VX from I .. I + X; I is unchanged (R245, D12). -/
def execLdRegs (x : Reg) (s : State) : Result :=
  finish (.ldRegs x) (s.loadRegs s.I.toNat (regsUpTo x))

end Sys2Proof.Machine
end

