-- ==== Sys2Proof/Machine/KeysTimers.lean ====
section
/-! DEFINITION. Key and timer instructions (45_keys_timers.md). -/

namespace Sys2Proof.Machine

/-- EX9E SKP Vx (R301). -/
def execSkp (x : Reg) (s : State) : Result := .next (s.skipIf (s.keyPressed (keyIndex (s.reg x))))

/-- EXA1 SKNP Vx (R302). -/
def execSknp (x : Reg) (s : State) : Result := .next (s.skipIf (!s.keyPressed (keyIndex (s.reg x))))

/-- FX0A LD Vx, K: with no key pressed pc goes back to the instruction, which runs again; otherwise the
lowest pressed key is stored (R303, R304). -/
def execLdKey (x : Reg) (s : State) : Result :=
  match s.lowestKey with
  | none => .next { s with pc := s.pc - 2 }
  | some k => .next (s.setReg x (keyByte k))

/-- FX07 LD Vx, DT (R305). -/
def execLdFromDt (x : Reg) (s : State) : Result := .next (s.setReg x s.DT)

/-- FX15 LD DT, Vx (R306). -/
def execLdDt (x : Reg) (s : State) : Result := .next { s with DT := s.reg x }

/-- FX18 LD ST, Vx (R307). -/
def execLdSt (x : Reg) (s : State) : Result := .next { s with ST := s.reg x }

end Sys2Proof.Machine
end

