-- ==== Sys2Proof/Machine/HostSide.lean ====
section
/-! DEFINITION. The block's interfaces to the world outside: construction and program load
(70_reset_and_hazards.md R380, 60_exceptions.md R360), the host steps (R357) and what the host reads. -/

namespace Sys2Proof.Machine

/-- mem[a + i] <- P[i] for every byte of an image. -/
def State.storeImage (s : State) (a : Nat) : List Byte → State
  | [] => s
  | v :: vs => (s.setByte a v).storeImage (a + 1) vs

/-- Init(cfg, P): a program that is too long fails and nothing is constructed; otherwise every component
has its reset value, the font stands at FONT_BASE and the program at 0x200 (R380, R331). -/
def State.init (c : Config) (image : List Byte) : Except Error State :=
  if image.length > maxProgramLength then .error (.memoryLoadOverflow image.length)
  else .ok ((State.resetWith c).storeImage loadAddress image)

/-- A timer one tick later: floored at 0 (60_exceptions.md R355). -/
def tickDown (t : Byte) : Byte := if t.toNat > 0 then t - 1 else t

/-- The effect of a host step (R357): a tick takes both timers down, a key update writes all 16 keys, and
a snapshot and an audio poll change nothing. -/
def hostStep (h : HostStep) (s : State) : State :=
  match h with
  | .tick => { s with DT := tickDown s.DT, ST := tickDown s.ST }
  | .keyUpdate k => { s with keys := k }
  | .snapshot => s
  | .audioPoll => s

/-- What a Snapshot returns: a copy of disp (R362). -/
def State.snapshotValue (s : State) : Display := s.disp

/-- What an AudioPoll returns: the sound timer's value (R364). -/
def State.audioValue (s : State) : Byte := s.ST

/-- The tone should be playing while ST is nonzero (R364). -/
def State.toneOn (s : State) : Bool := s.ST != 0

/-- The halt record the host receives, once there is one (R365). -/
def State.haltReport (s : State) : Option HaltRecord :=
  match s.status with
  | .running => none
  | .halted r => some r

/-- A word stored at an address, high byte first (20_memory.md R76). -/
def State.placeWord (s : State) (a : Nat) (w : Word) : State :=
  (s.setByte a (hiByte w)).setByte (a + 1) (loByte w)

/-- The address a word can be fetched from: pc where a fetch there succeeds, otherwise the load address
(log 15). -/
def State.fetchablePc (s : State) : Word := if s.pc.toNat + 1 ≤ topAddress then s.pc else 0x0200

end Sys2Proof.Machine
end

