-- ==== Sys2Proof/Machine/Cycle.lean ====
section
/-! DEFINITION. The fetch-decode-execute cycle (40_cycle.md) and the turns of the block (60_exceptions.md
R357). -/

namespace Sys2Proof.Machine

/-- Fetch: the two bytes at pc and pc + 1, high byte first; the check at pc comes first (R140). -/
def fetch (s : State) : Except Error Word :=
  match s.memRead s.pc.toNat with
  | .error e => .error e
  | .ok hi =>
    match s.memRead (s.pc.toNat + 1) with
    | .error e => .error e
    | .ok lo => .ok (wordOfBytes hi lo)

/-- Advance: pc <- a + 2, after a successful fetch and before decoding (R141). -/
def State.advance (s : State) : State := { s with pc := s.pc + 2 }

/-- Executing an Unknown word: UnknownOpcode under `fatal` (R145), no effect under `nop` (R146). -/
def executeUnknown (w : Word) (s : State) : Result :=
  match s.cfg.unknownPolicy with
  | .fatal => .next (s.raiseIn w (.unknownOpcode w))
  | .nop => .next s

/-- Decode and execute (R142, R143). -/
def execute (w : Word) (s : State) : Result :=
  match decode w with
  | .instr i => exec i s
  | .unknown u => executeUnknown u s

/-- Cycle (R144). A fetch fault leaves pc at a and records no word (R140); on a halted engine no cycle
runs (R147; log 5). -/
def cycle (s : State) : Result :=
  match s.status with
  | .halted r => .fault (.halted r)
  | .running =>
    match fetch s with
    | .error e => .next (s.raise e s.pc none)
    | .ok w => execute w s.advance

/-- One turn (60_exceptions.md R357): host steps are enabled in every status (R359). -/
def takeTurn (t : Turn) (s : State) : Result :=
  match t with
  | .cycle => cycle s
  | .host h => .next (hostStep h s)

/-- The turn that comes next and the state with it taken off the schedule; an empty schedule means a
cycle (log 4). -/
def State.nextTurn (s : State) : Turn × State :=
  match s.schedule with
  | [] => (.cycle, s)
  | t :: ts => (t, { s with schedule := ts })

end Sys2Proof.Machine
end

