-- ==== Sys2Proof/Machine/Step.lean ====
section
/-! DEFINITION. One step of the block, and how a word is placed where the next step fetches it. -/

namespace Sys2Proof.Machine

/-- One step: the turn that is due (60_exceptions.md R357). -/
def step (s : State) : Host.Outcome State Fault Refusal := takeTurn s.nextTurn.1 s.nextTurn.2

/-- The state whose very next step fetches and runs the table word `w`: stored high byte first at the pc,
the engine running, a cycle due (log 15). -/
def State.withFetchWord (s : State) (nbits w : Nat) : State :=
  { s with pc := s.fetchablePc, status := .running, schedule := [] }.placeWord
    s.fetchablePc.toNat (tableWord nbits w)

end Sys2Proof.Machine
end

