-- ==== Sys2Proof/Safety.lean ====
section
/-! DEFINITION. The terms claims are stated in: what a state may look like (`State.Inv`), what an
instruction leaves unchanged (`UnchangedExcept`), runs over a list of turns, and fair schedules. -/

namespace Sys2Proof.Machine

/-- What a halt record says of the block that holds it (60_exceptions.md R330, R334, D24): a fetch fault
names an address above 0xFFF, has no word and leaves pc at the fault pc; any other error has the word
and leaves pc two past it. A cycle raises no MemoryLoadOverflow (R330), and UnknownOpcode carries the
record's own word (R145) and arises only under the fatal policy (R146). -/
structure HaltRecord.Agrees (r : HaltRecord) (c : Config) (pc : Word) : Prop where
  notLoad : r.error.kind ≠ .memoryLoadOverflow
  address : ∀ a, r.error = .outOfBoundsAddress a → a > 0xFFF
  opcode  : ∀ w, r.error = .unknownOpcode w → r.word = some w ∧ c.unknownPolicy = .fatal
  fetched : ∀ w, r.word = some w → r.faultPc.toNat ≤ 0xFFE ∧ pc = r.faultPc + 2
  unread  : r.word = none → r.error.kind = .outOfBoundsAddress ∧ r.faultPc.toNat > 0xFFE ∧ pc = r.faultPc

/-- The invariant of every run: the font is in its range (20_memory.md R81), memory is in canonical form
with every address inside it, the stack holds at most 16 entries (10_state.md R39), each at most 0x1000,
pc is at most 0x10FE (R37), and a halt record agrees with the pc it left. -/
structure State.Inv (s : State) : Prop where
  params  : s.cfg.wf
  memory  : Memory.wf (resetByte s.cfg) s.mem
  depth   : s.S.length ≤ 16
  entries : ∀ a ∈ s.S, a.toNat ≤ 0x1000
  pcBound : s.pc.toNat ≤ 0x10FE
  record  : ∀ r, s.status = .halted r → r.Agrees s.cfg s.pc

/-- The components an instruction may write; what is not named is left unchanged. -/
structure Writes where
  regs   : List Reg := []
  bytes  : List Nat := []
  I      : Bool := false
  pc     : Bool := false
  S      : Bool := false
  DT     : Bool := false
  ST     : Bool := false
  disp   : Bool := false
  status : Bool := false
  draws  : Bool := false

/-- From `s` to `t` nothing changes but what `w` names: no other register, no other byte of memory, no
other component. Keys, parameters and schedule are never named. -/
structure UnchangedExcept (w : Writes) (s t : State) : Prop where
  regs     : ∀ r, r ∉ w.regs → t.reg r = s.reg r
  bytes    : ∀ a, a ∉ w.bytes → t.byte a = s.byte a
  I        : w.I = false → t.I = s.I
  pc       : w.pc = false → t.pc = s.pc
  S        : w.S = false → t.S = s.S
  DT       : w.DT = false → t.DT = s.DT
  ST       : w.ST = false → t.ST = s.ST
  disp     : w.disp = false → t.disp = s.disp
  status   : w.status = false → t.status = s.status
  draws    : w.draws = false → t.draws = s.draws
  keys     : t.keys = s.keys
  cfg      : t.cfg = s.cfg
  schedule : t.schedule = s.schedule

/-- The instruction the next cycle executes, if its fetch succeeds and the word is not Unknown. -/
def State.dueInstr (s : State) : Option Instr :=
  match fetch s with
  | .error _ => none
  | .ok w =>
    match decode w with
    | .instr i => some i
    | .unknown _ => none

/-- Some set bit of the sprite at (x, y) lands on the pixel (44_display.md R271, R273, R274). -/
def SpriteCovers (x y : Byte) (bs : List Byte) (px : Fin 64) (py : Fin 32) : Prop :=
  ∃ k c b, bs[k]? = some b ∧ c ≤ 7 ∧ spriteBit b c = true ∧ px = spriteColumn x c ∧ py = spriteRow y k

/-- The turns of a list, one after the other, stopping at the first that is not enabled
(60_exceptions.md R357). -/
def runTurns : List Turn → State → Result
  | [], s => .next s
  | t :: ts, s =>
    match takeTurn t s with
    | .next u => runTurns ts u
    | .fault f => .fault f
    | .refused r => .refused r

/-- How many ticks of the timer driver a list of turns holds. -/
def ticksIn (ts : List Turn) : Nat := ts.count (.host .tick)

/-- Along the run no cycle executes an instruction that `p` names. -/
def RunAvoids (p : Instr → Prop) : List Turn → State → Prop
  | [], _ => True
  | t :: ts, s =>
    (t = .cycle → ∀ i, s.dueInstr = some i → ¬ p i) ∧
    ∀ u, takeTurn t s = .next u → RunAvoids p ts u

/-- No key update of the list leaves a key pressed. -/
def KeysStayReleased (ts : List Turn) : Prop := ∀ k, Turn.host (.keyUpdate k) ∈ ts → k = 0

/-- The engine waits in FX0A: it is running, the word at pc is an FX0A and no key is pressed
(10_state.md R47). -/
def State.Blocked (s : State) : Prop :=
  s.status = .running ∧ (∃ x, s.dueInstr = some (.ldKey x)) ∧ s.keys = 0

/-- The first `n` turns of an endless schedule. -/
def turnsOf (σ : Nat → Turn) (n : Nat) : List Turn := (List.range n).map σ

/-- An endless run: every turn of the schedule is enabled when it comes (60_exceptions.md R357). -/
def IsRun (σ : Nat → Turn) (s : State) : Prop := ∀ n, ∃ t, runTurns (turnsOf σ n) s = .next t

/-- The engine is running after `n` turns, so that a cycle is enabled there (R357). -/
def RunningAfter (σ : Nat → Turn) (s : State) (n : Nat) : Prop :=
  ∃ t, runTurns (turnsOf σ n) s = .next t ∧ t.status = .running

/-- Weak fairness of Tick, which is always enabled, and of Cycle while Running: if from some turn on the
engine runs for ever, a cycle comes after that turn (R357, R359, D25). After a halt none is asked for. -/
def WeaklyFair (σ : Nat → Turn) (s : State) : Prop :=
  (∀ n, ∃ m, n ≤ m ∧ σ m = .host .tick) ∧
  ∀ n, (∀ m, n ≤ m → RunningAfter σ s m) → ∃ m, n ≤ m ∧ σ m = .cycle

end Sys2Proof.Machine
end

