-- ==== Sys2Proof/Certificates/Slice0/Obligations.lean ====
section
/-! DEFINITION. The statements for the provers. `s` is the state an instruction starts in, with pc already
at its address plus 2 (40_cycle.md R141); `t` is the state it leaves. -/

open Sys2Proof Sys2Proof.Machine

/-! ### Encoding (30_encoding.md) -/

/-- Decoding the word of a well-formed instruction gives the instruction back, with every operand at every
value (R102, R105, R112; the patterns are the spec's decision D1). -/
def Obligations.DecodeOfEncodeIsIdentity : Prop :=
  ∀ i : Instr, i.wellFormed = true → decode (encode i) = .instr i

/-- A word that decodes to an instruction is that instruction's word, and the instruction is well formed:
no bit of the word is dropped, the ignored nibble of 5XYn and 9XYn included (the patterns are the spec's
decision D1, the ignored nibble D3; log 10, log 11). -/
def Obligations.DecodedWordsReencode : Prop :=
  ∀ (w : Word) (i : Instr), decode w = .instr i → i.wellFormed = true ∧ encode i = w

/-- A word that matches a row of R112 decodes to that row's instruction, and a word that matches none is
Unknown (R120; the table is the spec's decision D1). -/
def Obligations.DecodeFollowsOpcodeTable : Prop :=
  ∀ w : Word,
    (∀ r ∈ opcodeRows, r.matchesWord w = true → ∃ i, decode w = .instr i ∧ i.mnemonic = r.mnemonic) ∧
    ((∀ r ∈ opcodeRows, r.matchesWord w = false) → decode w = .unknown w)

/-- The Unknown words, family by family (R107, R120). The patterns are the spec's decision D1 (log 10); that
every 0NNN but two is Unknown is its decision D2, and that families 5 and 9 have no Unknown word its decision
D3 (log 11). -/
def Obligations.UnknownWordsByFamily : Prop :=
  ∀ w : Word, decode w = .unknown w ↔
    (famOf w = 0x0 ∧ w ≠ 0x00E0 ∧ w ≠ 0x00EE) ∨
    (famOf w = 0x8 ∧ nOf w ∈ [0x8, 0x9, 0xA, 0xB, 0xC, 0xD, 0xF]) ∨
    (famOf w = 0xE ∧ kkOf w ∉ [0x9E, 0xA1]) ∨
    (famOf w = 0xF ∧ kkOf w ∉ [0x07, 0x0A, 0x15, 0x18, 0x1E, 0x29, 0x33, 0x55, 0x65])

/-- Decoding is total: every word decodes to an instruction or to Unknown with the raw word (R104). -/
def Obligations.DecodeIsTotal : Prop :=
  ∀ w : Word, (∃ i, decode w = .instr i) ∨ decode w = .unknown w

/-- A word of each format, written out bit by bit from R102 and R112, decodes to its instruction. The bit
patterns are the spec's decision D1 from general knowledge G1 (PRESUMED, log 10); that 0x5121 is SE Vx, Vy
rests on R106, the spec's decision D3 (log 11). -/
def Obligations.SampleWordsDecode : Prop :=
  decode 0b0000000011100000 = .instr .cls ∧
  decode 0b0010001100000000 = .instr (.call 0x300) ∧
  decode 0b0011001100000101 = .instr (.seImm 3 0x05) ∧
  decode 0b0101000100100001 = .instr (.seReg 1 2 0x1) ∧
  decode 0b1000000100100110 = .instr (.shr 1 2) ∧
  decode 0b1101000100100101 = .instr (.drw 1 2 5) ∧
  decode 0b1110000110011110 = .instr (.skp 1) ∧
  decode 0b1111001101010101 = .instr (.stRegs 3)

/-! ### The cycle (40_cycle.md) -/

/-- The fetch reads the bytes at pc and pc + 1, high byte first, whatever pc's parity. With pc above 0xFFE
it does not wrap: the cycle halts with OutOfBoundsAddress at the first of the two addresses above 0xFFF, pc
left at the fault pc and no word recorded, and changes nothing else (R140, 60_exceptions.md R334; the
spec's decisions D7, D8 and D24). -/
def Obligations.FetchReadsTwoBytesOrHalts : Prop :=
  ∀ s : State,
    (s.pc.toNat ≤ 0xFFE → fetch s = .ok (s.byte s.pc.toNat ++ s.byte (s.pc.toNat + 1))) ∧
    (s.pc.toNat > 0xFFE → s.status = .running →
      ∃ t, cycle s = .next t ∧
        t.status = .halted ⟨.outOfBoundsAddress (max s.pc.toNat 0x1000), s.pc, none⟩ ∧
        UnchangedExcept { status := true } s t)

/-- A step runs the instruction that the bytes at pc decode to, with pc two further and without wrap, when
a cycle is due; a scheduled turn is taken off the schedule (R141 to R143; the schedule is the model's own,
log 4). -/
def Obligations.StepRunsDecodedInstruction : Prop :=
  ∀ (s : State) (i : Instr), s.status = .running → s.pc.toNat ≤ 0xFFE →
    decode (s.byte s.pc.toNat ++ s.byte (s.pc.toNat + 1)) = .instr i →
    (s.pc + 2).toNat = s.pc.toNat + 2 ∧
    (s.schedule = [] → step s = exec i { s with pc := s.pc + 2 }) ∧
    ∀ ts, s.schedule = .cycle :: ts → step s = exec i { s with pc := s.pc + 2, schedule := ts }

/-- Executing an Unknown word under the fatal policy halts with UnknownOpcode: pc is a + 2, the record has
fault pc a and the word, and nothing else has changed (R145). -/
def Obligations.UnknownWordHaltsWhenFatal : Prop :=
  ∀ (s : State) (w : Word), s.status = .running → fetch s = .ok w → decode w = .unknown w →
    s.cfg.unknownPolicy = .fatal →
    ∃ t, cycle s = .next t ∧ t.status = .halted ⟨.unknownOpcode w, s.pc, some w⟩ ∧
      t.pc = s.pc + 2 ∧ UnchangedExcept { pc := true, status := true } s t

/-- Executing an Unknown word under the nop policy only advances pc (R146; the spec's decision D22). -/
def Obligations.UnknownWordIsSkippedWhenNop : Prop :=
  ∀ (s : State) (w : Word), s.status = .running → fetch s = .ok w → decode w = .unknown w →
    s.cfg.unknownPolicy = .nop →
    ∃ t, cycle s = .next t ∧ t.pc = s.pc + 2 ∧ t.status = .running ∧ UnchangedExcept { pc := true } s t

/-- No cycle of a running engine stops the machine: it answers a next state, running or halted. A cycle that
halts records the pc it fetched from, and either no word and the fetch's own error with pc unmoved, or the
fetched word with pc two further (R149, 10_state.md R46, 60_exceptions.md R334; pc after a halt is the spec's
decision D24). -/
def Obligations.CycleEndsRunningOrHalted : Prop :=
  ∀ s : State, s.status = .running → ∃ t, cycle s = .next t ∧
    (t.status = .running ∨ ∃ r, t.status = .halted r ∧ r.faultPc = s.pc ∧
      ((fetch s = .error r.error ∧ r.word = none ∧ t.pc = s.pc) ∨
        ∃ w, fetch s = .ok w ∧ r.word = some w ∧ t.pc = s.pc + 2))

/-- On a halted engine no cycle runs (the stop is the model's fault `halted`, log 5), and every host step
leaves it halted with everything but the timers and the keys as they were (R147, 60_exceptions.md R359; ticks
after a halt are the spec's decision D26). -/
def Obligations.HaltedEngineStaysHalted : Prop :=
  ∀ (s : State) (r : HaltRecord), s.status = .halted r →
    takeTurn .cycle s = .fault (.halted r) ∧
    ∀ h, ∃ t, takeTurn (.host h) s = .next t ∧ t.status = .halted r ∧
      t = { s with DT := t.DT, ST := t.ST, keys := t.keys }

/-- Every instruction raises at most one kind of error, and only these six instructions raise any
(60_exceptions.md R336). -/
def Obligations.ErrorKindsPerInstruction : Prop :=
  ∀ (i : Instr) (s t : State) (r : HaltRecord), s.status = .running → exec i s = .next t →
    t.status = .halted r →
    ((∃ nnn, i = .call nnn) ∧ r.error = .stackOverflow) ∨
    (i = .ret ∧ r.error = .stackUnderflow) ∨
    ((∃ x y n, i = .drw x y n) ∨ (∃ x, i = .ldBcd x ∨ i = .stRegs x ∨ i = .ldRegs x)) ∧
      ∃ a, a > 0xFFF ∧ r.error = .outOfBoundsAddress a

/-! ### Invariants -/

/-- Every step keeps the invariant: memory's canonical form, the stack's depth and entries, pc's bound, the
font's range, and the agreement of a halt record with the pc it left. -/
def Obligations.StepKeepsInv : Prop :=
  ∀ s t : State, s.Inv → step s = .next t → t.Inv

/-- The state after reset meets the invariant. -/
def Obligations.ResetMeetsInv : Prop := State.reset.Inv

/-- Every block that Init constructs meets the invariant, for any program and any parameters with the font
in its range. -/
def Obligations.InitMeetsInv : Prop :=
  ∀ (c : Config) (image : List Byte) (s : State), c.wf → State.init c image = .ok s → s.Inv

/-- No step changes a parameter (60_exceptions.md R361; for all of them, the spec's decision D31). -/
def Obligations.StepKeepsParameters : Prop :=
  ∀ s t : State, step s = .next t → t.cfg = s.cfg

/-- CYCLE_LATENCY has no effect on any step's result (00_scope.md R11; the spec's decision D30). -/
def Obligations.CycleLatencyHasNoEffect : Prop :=
  ∀ (s : State) (l : CycleLatency),
    (∀ t, step s = .next t →
      step { s with cfg := { s.cfg with cycleLatency := l } } =
        .next { t with cfg := { t.cfg with cycleLatency := l } }) ∧
    ∀ f, step s = .fault f → step { s with cfg := { s.cfg with cycleLatency := l } } = .fault f

/-- Every list of turns is a run of the machine: steps from a state whose schedule is the list do what the
turns do one after the other (60_exceptions.md R357; the schedule is the model's own, log 4). -/
def Obligations.ScheduleOrdersTurns : Prop :=
  ∀ (ts : List Turn) (s : State), s.schedule = [] →
    Host.Core.run Sys2Proof.core ts.length ({ s with schedule := ts } : State) = runTurns ts s

/-! ### What may change what -/

/-- A timer never rises unless an instruction sets it, and only FX15 (for DT), FX18 (for ST) and the tick
change one (10_state.md R42). -/
def Obligations.OnlySetAndTickChangeTimers : Prop :=
  ∀ (turn : Turn) (s t : State), takeTurn turn s = .next t →
    (t.DT ≠ s.DT → turn = .host .tick ∨ turn = .cycle ∧ ∃ x, s.dueInstr = some (.ldDt x)) ∧
    (t.ST ≠ s.ST → turn = .host .tick ∨ turn = .cycle ∧ ∃ x, s.dueInstr = some (.ldSt x)) ∧
    ((turn = .cycle → ∀ x, s.dueInstr ≠ some (.ldDt x)) → t.DT.toNat ≤ s.DT.toNat) ∧
    ((turn = .cycle → ∀ x, s.dueInstr ≠ some (.ldSt x)) → t.ST.toNat ≤ s.ST.toNat)

/-- Only a key update changes the keys; no cycle does (10_state.md R44). -/
def Obligations.OnlyKeyUpdateChangesKeys : Prop :=
  ∀ (turn : Turn) (s t : State), takeTurn turn s = .next t → t.keys ≠ s.keys →
    ∃ k, turn = .host (.keyUpdate k) ∧ t.keys = k

/-- Only FX33 and FX55 change memory, and only at I, I + 1, …; only 00E0 and DXYN change the display; only
2NNN and 00EE change the stack; only ANNN, FX1E and FX29 change I; only CXKK draws (20_memory.md R74,
10_state.md R38, R39, R43). That FX55 and FX65 leave I is the spec's decision D12 (log 11); the draw counter
is the model's own (DESIGN CHOICE, log 3), read from 00_scope.md R16. -/
def Obligations.OnlyTheseInstructionsWrite : Prop :=
  ∀ (i : Instr) (s t : State), exec i s = .next t →
    (∀ a, t.byte a ≠ s.byte a →
      (∃ x, i = .ldBcd x) ∧ a ∈ List.range' s.I.toNat 3 ∨
      ∃ x, i = .stRegs x ∧ a ∈ List.range' s.I.toNat (x.val + 1)) ∧
    (t.disp ≠ s.disp → i = .cls ∨ ∃ x y n, i = .drw x y n) ∧
    (t.S ≠ s.S → i = .ret ∨ ∃ nnn, i = .call nnn) ∧
    (t.I ≠ s.I → (∃ nnn, i = .ldI nnn) ∨ ∃ x, i = .addI x ∨ i = .ldFont x) ∧
    (t.draws ≠ s.draws → ∃ x kk, i = .rnd x kk)

/-- VF changes only by the six flag-writing instructions, or as an ordinary destination register
(10_state.md R33). -/
def Obligations.OnlyFlagWritersChangeVF : Prop :=
  ∀ (i : Instr) (s t : State), exec i s = .next t → t.reg VF ≠ s.reg VF →
    (∃ x y, i = .addReg x y ∨ i = .subReg x y ∨ i = .shr x y ∨ i = .subnReg x y ∨ i = .shl x y) ∨
    (∃ x y n, i = .drw x y n) ∨
    (∃ kk, i = .ldImm VF kk ∨ i = .addImm VF kk ∨ i = .rnd VF kk) ∨
    (∃ y, i = .ldReg VF y ∨ i = .orReg VF y ∨ i = .andReg VF y ∨ i = .xorReg VF y) ∨
    i = .ldFromDt VF ∨ i = .ldKey VF ∨ i = .ldRegs VF

/-! ### Memory and stack operations -/

/-- MemRead inside memory returns mem[a]; MemWrite inside memory sets mem[a] and changes nothing else
(20_memory.md R71). -/
def Obligations.MemoryReadAfterWrite : Prop :=
  ∀ (s : State) (a : Nat) (v : Byte), s.Inv → a ≤ 0xFFF →
    s.memRead a = .ok (s.byte a) ∧
    ∃ t, s.memWrite a v = .ok t ∧ t.memRead a = .ok v ∧ (∀ b, b ≠ a → t.memRead b = s.memRead b) ∧
      UnchangedExcept { bytes := [a] } s t

/-- push fails when the stack holds 16 entries and otherwise appends; pop fails when it is empty and
otherwise takes the last element (10_state.md R40). -/
def Obligations.StackPushAndPop : Prop :=
  (∀ (s : State) (a : Word), s.S.length = 16 → s.push a = .error .stackOverflow) ∧
  (∀ (s : State) (a : Word), s.S.length < 16 →
    ∃ t, s.push a = .ok t ∧ t.S = s.S ++ [a] ∧ UnchangedExcept { S := true } s t) ∧
  (∀ s : State, s.S = [] → s.pop = .error .stackUnderflow) ∧
  ∀ (s : State) (l : List Word) (a : Word), s.S = l ++ [a] →
    ∃ t, s.pop = .ok (a, t) ∧ t.S = l ∧ UnchangedExcept { S := true } s t

/-! ### Control flow (41_control_flow.md) -/

/-- 00EE pops the return address into pc, and a popped 0x1000 makes the next fetch raise; on an empty stack
it halts with StackUnderflow (R170). -/
def Obligations.ReturnPopsIntoPc : Prop :=
  encode .ret &&& 0xFFFF = 0x00EE ∧
  (∀ (s : State) (l : List Word) (a : Word), s.S = l ++ [a] →
    ∃ t, exec .ret s = .next t ∧ t.pc = a ∧ t.S = l ∧ UnchangedExcept { pc := true, S := true } s t ∧
      (a = 0x1000 → fetch t = .error (.outOfBoundsAddress 0x1000))) ∧
  ∀ s : State, s.S = [] →
    ∃ t, exec .ret s = .next t ∧ t.status = .halted ⟨.stackUnderflow, s.pc - 2, some 0x00EE⟩ ∧
      UnchangedExcept { status := true } s t

/-- 1NNN sets pc to the address, zero-extended, and raises nothing; after a jump to 0xFFF the next fetch
raises (R171). -/
def Obligations.JumpSetsPc : Prop :=
  ∀ (nnn : Addr) (s : State), encode (.jp nnn) &&& 0xF000 = 0x1000 ∧
    ∃ t, exec (.jp nnn) s = .next t ∧ t.pc.toNat = nnn.toNat ∧ UnchangedExcept { pc := true } s t ∧
      (nnn = 0xFFF → fetch t = .error (.outOfBoundsAddress 0x1000))

/-- 2NNN pushes the address of the next instruction and jumps; with 16 entries it halts with StackOverflow
and the stack unchanged (R172, whose reading of "current pc" the spec derives). -/
def Obligations.CallPushesReturnAddress : Prop :=
  ∀ (nnn : Addr) (s : State),
    (s.S.length < 16 → ∃ t, exec (.call nnn) s = .next t ∧ t.S = s.S ++ [s.pc] ∧
      t.pc.toNat = nnn.toNat ∧ UnchangedExcept { pc := true, S := true } s t) ∧
    (s.S.length = 16 → ∃ t, exec (.call nnn) s = .next t ∧
      t.status = .halted ⟨.stackOverflow, s.pc - 2, some (encode (.call nnn))⟩ ∧
      UnchangedExcept { status := true } s t)

/-- 3XKK and 4XKK add 2 to pc when the register equals, or differs from, the immediate (R173, R174). -/
def Obligations.SkipOnImmediate : Prop :=
  ∀ (x : Reg) (kk : Byte) (s : State),
    (encode (.seImm x kk) &&& 0xF000 = 0x3000 ∧
      ∃ t, exec (.seImm x kk) s = .next t ∧ t.pc = (if s.reg x = kk then s.pc + 2 else s.pc) ∧
        UnchangedExcept { pc := true } s t) ∧
    (encode (.sneImm x kk) &&& 0xF000 = 0x4000 ∧
      ∃ t, exec (.sneImm x kk) s = .next t ∧ t.pc = (if s.reg x ≠ kk then s.pc + 2 else s.pc) ∧
        UnchangedExcept { pc := true } s t)

/-- 5XYn and 9XYn add 2 to pc when the registers are equal, or differ, whatever n is (R175, R176; the
ignored nibble is the spec's decision D3). -/
def Obligations.SkipOnRegisters : Prop :=
  ∀ (x y : Reg) (low : Nibble) (s : State),
    (∃ t, exec (.seReg x y low) s = .next t ∧
      t.pc = (if s.reg x = s.reg y then s.pc + 2 else s.pc) ∧ UnchangedExcept { pc := true } s t) ∧
    (∃ t, exec (.sneReg x y low) s = .next t ∧
      t.pc = (if s.reg x ≠ s.reg y then s.pc + 2 else s.pc) ∧ UnchangedExcept { pc := true } s t)

/-- BNNN sets pc to V0 + NNN, with no mask and no wrap (R178; the spec's decision D10). -/
def Obligations.JumpWithOffset : Prop :=
  ∀ (nnn : Addr) (s : State), ∃ t, exec (.jpV0 nnn) s = .next t ∧
    t.pc.toNat = (s.reg 0).toNat + nnn.toNat ∧ UnchangedExcept { pc := true } s t

/-! ### Registers (42_alu.md) -/

/-- 6XKK loads the immediate, 7XKK adds it modulo 256 with no flag, 8XY0 copies; with X = F these write VF
as data (R201, R202, R203). -/
def Obligations.LoadAndAddImmediate : Prop :=
  ∀ (x y : Reg) (kk : Byte) (s : State),
    (encode (.ldImm x kk) &&& 0xF000 = 0x6000 ∧
      ∃ t, exec (.ldImm x kk) s = .next t ∧ t.reg x = kk ∧ UnchangedExcept { regs := [x] } s t) ∧
    (encode (.addImm x kk) &&& 0xF000 = 0x7000 ∧
      ∃ t, exec (.addImm x kk) s = .next t ∧
        (t.reg x).toNat = ((s.reg x).toNat + kk.toNat) % 256 ∧ UnchangedExcept { regs := [x] } s t) ∧
    (encode (.ldReg x y) &&& 0xF00F = 0x8000 ∧
      ∃ t, exec (.ldReg x y) s = .next t ∧ t.reg x = s.reg y ∧ UnchangedExcept { regs := [x] } s t)

/-- 8XY1, 8XY2 and 8XY3 write the bitwise result to V[X] and no flag (R204 to R206; the spec's decision
D15). -/
def Obligations.LogicWritesNoFlag : Prop :=
  ∀ (x y : Reg) (s : State),
    (∃ t, exec (.orReg x y) s = .next t ∧ t.reg x = s.reg x ||| s.reg y ∧
      UnchangedExcept { regs := [x] } s t) ∧
    (∃ t, exec (.andReg x y) s = .next t ∧ t.reg x = s.reg x &&& s.reg y ∧
      UnchangedExcept { regs := [x] } s t) ∧
    (∃ t, exec (.xorReg x y) s = .next t ∧ t.reg x = s.reg x ^^^ s.reg y ∧
      UnchangedExcept { regs := [x] } s t)

/-- 8XY4 writes the sum modulo 256 and the carry, 8XY5 and 8XY7 the difference modulo 256 and NOT borrow;
with X = F, VF holds the flag (R209, R210, R212, R207; the order of result and flag is the spec's decision
D14). -/
def Obligations.AddAndSubtractWithFlag : Prop :=
  ∀ (x y : Reg) (s : State),
    (∃ t, exec (.addReg x y) s = .next t ∧
      (x ≠ VF → (t.reg x).toNat = ((s.reg x).toNat + (s.reg y).toNat) % 256) ∧
      t.reg VF = (if (s.reg x).toNat + (s.reg y).toNat > 0xFF then 1 else 0) ∧
      UnchangedExcept { regs := [x, VF] } s t) ∧
    (∃ t, exec (.subReg x y) s = .next t ∧
      (x ≠ VF → ((t.reg x).toNat : Int) = (((s.reg x).toNat : Int) - (s.reg y).toNat) % 256) ∧
      t.reg VF = (if (s.reg x).toNat ≥ (s.reg y).toNat then 1 else 0) ∧
      UnchangedExcept { regs := [x, VF] } s t) ∧
    (∃ t, exec (.subnReg x y) s = .next t ∧
      (x ≠ VF → ((t.reg x).toNat : Int) = (((s.reg y).toNat : Int) - (s.reg x).toNat) % 256) ∧
      t.reg VF = (if (s.reg y).toNat ≥ (s.reg x).toNat then 1 else 0) ∧
      UnchangedExcept { regs := [x, VF] } s t)

/-- 8XY6 and 8XYE shift V[Y] under legacy and V[X] under modern, by one, into V[X], and VF holds the bit
shifted out, with X = F too (R207, R211, R213, R214; the mapping of the two settings is the spec's decision
D16, the flag after the result D14; log 11). -/
def Obligations.ShiftsFollowQuirk : Prop :=
  ∀ (x y : Reg) (v : Byte) (s : State),
    (s.cfg.shiftQuirk = .legacy ∧ v = s.reg y ∨ s.cfg.shiftQuirk = .modern ∧ v = s.reg x) →
    (∃ t, exec (.shr x y) s = .next t ∧ (x ≠ VF → (t.reg x).toNat = v.toNat / 2) ∧
      (t.reg VF).toNat = v.toNat % 2 ∧ UnchangedExcept { regs := [x, VF] } s t) ∧
    (∃ t, exec (.shl x y) s = .next t ∧ (x ≠ VF → (t.reg x).toNat = v.toNat * 2 % 256) ∧
      (t.reg VF).toNat = v.toNat / 128 ∧ UnchangedExcept { regs := [x, VF] } s t)

/-- CXKK writes a fresh draw under the mask; the draw is a free value (R215; the spec's decision D21,
log 3). -/
def Obligations.RandomUnderMask : Prop :=
  ∀ (x : Reg) (kk : Byte) (s : State), ∃ t, exec (.rnd x kk) s = .next t ∧
    t.reg x = Config.randomByte s.draws &&& kk ∧ t.draws = s.draws + 1 ∧
    UnchangedExcept { regs := [x], draws := true } s t

/-! ### Index register and memory (43_index_memory.md) -/

/-- ANNN loads I with the address; FX29 points I at the glyph of the low four bits of V[X], at or below
0x1FB when the font is in its range (R240, R242). -/
def Obligations.IndexLoads : Prop :=
  (∀ (nnn : Addr) (s : State), encode (.ldI nnn) &&& 0xF000 = 0xA000 ∧
    ∃ t, exec (.ldI nnn) s = .next t ∧ t.I.toNat = nnn.toNat ∧ UnchangedExcept { I := true } s t) ∧
  ∀ (x : Reg) (s : State), encode (.ldFont x) &&& 0xF0FF = 0xF029 ∧
    ∃ t, exec (.ldFont x) s = .next t ∧
      t.I.toNat = s.cfg.fontBase.toNat + 5 * ((s.reg x).toNat % 16) ∧
      (s.cfg.wf → t.I.toNat ≤ 0x1FB) ∧ UnchangedExcept { I := true } s t

/-- FX1E adds V[X] to I modulo 2^16, with no flag and no fault (R241; the spec's decision D11). -/
def Obligations.AddToIndex : Prop :=
  ∀ (x : Reg) (s : State), ∃ t, exec (.addI x) s = .next t ∧
    t.I.toNat = (s.I.toNat + (s.reg x).toNat) % 65536 ∧ UnchangedExcept { I := true } s t

/-- FX33 stores hundreds, tens and ones at I, I + 1, I + 2 when all three are in memory, and changes nothing
else (R243). -/
def Obligations.DecimalStoreCompletes : Prop :=
  ∀ (x : Reg) (s : State), s.Inv → s.I.toNat + 2 ≤ 0xFFF →
    ∃ t, exec (.ldBcd x) s = .next t ∧
      (t.byte s.I.toNat).toNat = (s.reg x).toNat / 100 ∧
      (t.byte (s.I.toNat + 1)).toNat = (s.reg x).toNat / 10 % 10 ∧
      (t.byte (s.I.toNat + 2)).toNat = (s.reg x).toNat % 10 ∧
      UnchangedExcept { bytes := List.range' s.I.toNat 3 } s t

/-- FX33 halts at the first address above 0xFFF with the digits below it stored (R243, 60_exceptions.md
R335; the spec's decision D13). -/
def Obligations.DecimalStoreHaltsPartWay : Prop :=
  ∀ (x : Reg) (s : State), s.Inv → s.I.toNat + 2 > 0xFFF →
    ∃ t, exec (.ldBcd x) s = .next t ∧
      t.status = .halted ⟨.outOfBoundsAddress (max s.I.toNat 0x1000), s.pc - 2, some (encode (.ldBcd x))⟩ ∧
      (s.I.toNat ≤ 0xFFF → (t.byte s.I.toNat).toNat = (s.reg x).toNat / 100) ∧
      (s.I.toNat + 1 ≤ 0xFFF → (t.byte (s.I.toNat + 1)).toNat = (s.reg x).toNat / 10 % 10) ∧
      UnchangedExcept
        { bytes := (List.range' s.I.toNat 3).filter (fun a => decide (a ≤ 0xFFF)), status := true } s t

/-- FX55 stores V0 to VX at I .. I + X when all are in memory, and changes nothing else, I included (R244;
the spec's decision D12). -/
def Obligations.RegisterStoreCompletes : Prop :=
  ∀ (x : Reg) (s : State), s.Inv → s.I.toNat + x.val ≤ 0xFFF →
    ∃ t, exec (.stRegs x) s = .next t ∧ (∀ r : Reg, r ≤ x → t.byte (s.I.toNat + r.val) = s.reg r) ∧
      UnchangedExcept { bytes := List.range' s.I.toNat (x.val + 1) } s t

/-- FX55 halts at the first address above 0xFFF with the registers below it stored (R244, 60_exceptions.md
R335; the spec's decision D13). -/
def Obligations.RegisterStoreHaltsPartWay : Prop :=
  ∀ (x : Reg) (s : State), s.Inv → s.I.toNat + x.val > 0xFFF →
    ∃ t, exec (.stRegs x) s = .next t ∧
      t.status = .halted ⟨.outOfBoundsAddress (max s.I.toNat 0x1000), s.pc - 2, some (encode (.stRegs x))⟩ ∧
      (∀ r : Reg, r ≤ x → s.I.toNat + r.val ≤ 0xFFF → t.byte (s.I.toNat + r.val) = s.reg r) ∧
      UnchangedExcept
        { bytes := (List.range' s.I.toNat (x.val + 1)).filter (fun a => decide (a ≤ 0xFFF)),
          status := true } s t

/-- FX65 loads V0 to VX from I .. I + X when all are in memory, VF as data when X = F, and changes nothing
else, I included (R245; the spec's decision D12). -/
def Obligations.RegisterLoadCompletes : Prop :=
  ∀ (x : Reg) (s : State), s.I.toNat + x.val ≤ 0xFFF →
    ∃ t, exec (.ldRegs x) s = .next t ∧ (∀ r : Reg, r ≤ x → t.reg r = s.byte (s.I.toNat + r.val)) ∧
      UnchangedExcept { regs := (List.finRange 16).filter (fun r => decide (r ≤ x)) } s t

/-- FX65 halts at the first address above 0xFFF with the registers below it loaded (R245, 60_exceptions.md
R335; the spec's decision D13). -/
def Obligations.RegisterLoadHaltsPartWay : Prop :=
  ∀ (x : Reg) (s : State), s.I.toNat + x.val > 0xFFF →
    ∃ t, exec (.ldRegs x) s = .next t ∧
      t.status = .halted ⟨.outOfBoundsAddress (max s.I.toNat 0x1000), s.pc - 2, some (encode (.ldRegs x))⟩ ∧
      (∀ r : Reg, r ≤ x → s.I.toNat + r.val ≤ 0xFFF → t.reg r = s.byte (s.I.toNat + r.val)) ∧
      UnchangedExcept
        { regs := (List.finRange 16).filter (fun r => decide (r ≤ x ∧ s.I.toNat + r.val ≤ 0xFFF)),
          status := true } s t

/-- A word stored by FX55 is what the next fetch from its address reads (20_memory.md R89,
70_reset_and_hazards.md R386). -/
def Obligations.StoreIsSeenByNextFetch : Prop :=
  ∀ (x r q : Reg) (s t : State), s.Inv → s.I.toNat + x.val ≤ 0xFFF → q.val = r.val + 1 → q ≤ x →
    exec (.stRegs x) s = .next t →
    fetch { t with pc := s.I + BitVec.ofNat 16 r.val } = .ok (s.reg r ++ s.reg q)

/-! ### Display (44_display.md) -/

/-- 00E0 turns every pixel off and changes nothing else, VF included (R270). -/
def Obligations.ClearTurnsEveryPixelOff : Prop :=
  encode .cls &&& 0xFFFF = 0x00E0 ∧
  ∀ s : State, ∃ t, exec .cls s = .next t ∧ (∀ px py, Display.pixel t.disp px py = false) ∧
    UnchangedExcept { disp := true } s t

/-- DXYN reads N bytes at I, toggles exactly the pixels the sprite covers, with wrap on both axes, and sets
VF when one of them was on; with N = 0 it draws nothing and clears VF, whatever I is (R271 to R275; bit order
and N = 0 are the spec's decisions D17 and D18). -/
def Obligations.DrawTogglesCoveredPixels : Prop :=
  ∀ (x y : Reg) (n : Nat) (bs : List Byte) (s : State), n ≤ 15 → (n = 0 ∨ s.I.toNat + n ≤ 0x1000) →
    bs = (List.range' s.I.toNat n).map s.byte →
    ∃ t, exec (.drw x y n) s = .next t ∧
      (∀ px py, SpriteCovers (s.reg x) (s.reg y) bs px py →
        Display.pixel t.disp px py = !Display.pixel s.disp px py) ∧
      (∀ px py, ¬ SpriteCovers (s.reg x) (s.reg y) bs px py →
        Display.pixel t.disp px py = Display.pixel s.disp px py) ∧
      (t.reg VF = 1 ∨ t.reg VF = 0) ∧
      (t.reg VF = 1 ↔
        ∃ px py, SpriteCovers (s.reg x) (s.reg y) bs px py ∧ Display.pixel s.disp px py = true) ∧
      UnchangedExcept { regs := [VF], disp := true } s t

/-- DXYN halts at the first address above 0xFFF before any pixel or VF changes (R272, 60_exceptions.md R335;
the spec's decision D13). -/
def Obligations.DrawHaltsBeforePlotting : Prop :=
  ∀ (x y : Reg) (n : Nat) (s : State), 0 < n → n ≤ 15 → s.I.toNat + n > 0x1000 →
    ∃ t, exec (.drw x y n) s = .next t ∧
      t.status = .halted ⟨.outOfBoundsAddress (max s.I.toNat 0x1000), s.pc - 2,
        some (encode (.drw x y n))⟩ ∧
      UnchangedExcept { status := true } s t

/-- Plotting is its own inverse, and the second plot collides exactly when the sprite covers a pixel that
was off before the first (R277, C2). -/
def Obligations.PlotTwiceRestoresDisplay : Prop :=
  ∀ (x y : Byte) (bs : List Byte) (d : Display), bs.length ≤ 15 →
    (plotSprite x y bs (plotSprite x y bs d).1).1 = d ∧
    ((plotSprite x y bs (plotSprite x y bs d).1).2 = true ↔
      ∃ px py, SpriteCovers x y bs px py ∧ Display.pixel d px py = false)

/-! ### Keys and timers (45_keys_timers.md) -/

/-- EX9E and EXA1 skip when the key named by the low four bits of V[X] is pressed, or is not (R301, R302;
the low four bits are the spec's decision D20). -/
def Obligations.SkipOnKey : Prop :=
  ∀ (x : Reg) (s : State),
    (∃ t, exec (.skp x) s = .next t ∧
      t.pc = (if s.keys.getLsbD ((s.reg x).toNat % 16) = true then s.pc + 2 else s.pc) ∧
      UnchangedExcept { pc := true } s t) ∧
    (∃ t, exec (.sknp x) s = .next t ∧
      t.pc = (if s.keys.getLsbD ((s.reg x).toNat % 16) = false then s.pc + 2 else s.pc) ∧
      UnchangedExcept { pc := true } s t)

/-- FX0A with a key pressed stores the lowest pressed key's number; with none pressed it puts pc back on
itself and changes nothing else (R303, R304; the spec's decision D19). -/
def Obligations.WaitForKey : Prop :=
  ∀ (x : Reg) (s : State),
    (∀ k : Fin 16, s.keyPressed k = true → (∀ j, j < k → s.keyPressed j = false) →
      ∃ t, exec (.ldKey x) s = .next t ∧ (t.reg x).toNat = k.val ∧
        UnchangedExcept { regs := [x] } s t) ∧
    ((∀ k, s.keyPressed k = false) →
      ∃ t, exec (.ldKey x) s = .next t ∧ t.pc = s.pc - 2 ∧ UnchangedExcept { pc := true } s t)

/-- FX07 reads DT, FX15 sets DT and FX18 sets ST; each changes nothing else (R305, R306, R307; of R307 not
that no instruction reads ST back). -/
def Obligations.TimerReadAndSet : Prop :=
  ∀ (x : Reg) (s : State),
    (encode (.ldFromDt x) &&& 0xF0FF = 0xF007 ∧
      ∃ t, exec (.ldFromDt x) s = .next t ∧ t.reg x = s.DT ∧ UnchangedExcept { regs := [x] } s t) ∧
    (encode (.ldDt x) &&& 0xF0FF = 0xF015 ∧
      ∃ t, exec (.ldDt x) s = .next t ∧ t.DT = s.reg x ∧ UnchangedExcept { DT := true } s t) ∧
    (encode (.ldSt x) &&& 0xF0FF = 0xF018 ∧
      ∃ t, exec (.ldSt x) s = .next t ∧ t.ST = s.reg x ∧ UnchangedExcept { ST := true } s t)

/-! ### Timers, host and construction (60_exceptions.md, 70_reset_and_hazards.md) -/

/-- A tick takes both timers down by one, floored at 0, in one step and in every status, and touches nothing
else (R355, R359; one step for both and ticks after a halt are the spec's decisions D29 and D26). -/
def Obligations.TickDecrementsBothTimers : Prop :=
  ∀ s : State, ∃ t, takeTurn (.host .tick) s = .next t ∧
    t.DT.toNat = s.DT.toNat - 1 ∧ t.ST.toNat = s.ST.toNat - 1 ∧
    UnchangedExcept { DT := true, ST := true } s t

/-- A key update writes all 16 keys, bit k being key k, and nothing else; a snapshot and an audio poll change
nothing and give the host the display and the sound timer (R362, R363, R364; the bit order is the spec's
decision D28, and reading what the host is given off the state is the model's choice, log 17). -/
def Obligations.KeyUpdateSnapshotAndAudioPoll : Prop :=
  ∀ s : State,
    (∀ k : BitVec 16, ∃ t, takeTurn (.host (.keyUpdate k)) s = .next t ∧
      (∀ j : Fin 16, t.keyPressed j = k.getLsbD j.val) ∧ t = { s with keys := t.keys }) ∧
    takeTurn (.host .snapshot) s = .next s ∧
    (∀ px py, Display.pixel s.snapshotValue px py = Display.pixel s.disp px py) ∧
    takeTurn (.host .audioPoll) s = .next s ∧ s.audioValue = s.ST ∧ (s.toneOn = true ↔ s.ST.toNat ≠ 0)

/-- However the turns interleave, a timer that nothing sets has gone down by the number of ticks, floored at
0: one holding v is at 0 after v ticks, whatever number of cycles runs (70_reset_and_hazards.md R391,
60_exceptions.md R355, R357; C3). -/
def Obligations.TimersCountTicksNotCycles : Prop :=
  ∀ (ts : List Turn) (s t : State), runTurns ts s = .next t →
    (RunAvoids (fun i => ∃ x, i = .ldDt x) ts s → t.DT.toNat = s.DT.toNat - ticksIn ts) ∧
    (RunAvoids (fun i => ∃ x, i = .ldSt x) ts s → t.ST.toNat = s.ST.toNat - ticksIn ts)

/-- While the engine waits in FX0A and no key is pressed, any number of cycles, ticks and other host steps
leaves it waiting with nothing changed but the timers, which go on counting (60_exceptions.md R358,
45_keys_timers.md R304). -/
def Obligations.BlockedEngineStillTicks : Prop :=
  ∀ (ts : List Turn) (s : State), s.Blocked → KeysStayReleased ts →
    ∃ t, runTurns ts s = .next t ∧ t.Blocked ∧
      t.DT.toNat = s.DT.toNat - ticksIn ts ∧ t.ST.toNat = s.ST.toNat - ticksIn ts ∧
      UnchangedExcept { DT := true, ST := true } s t

/-- Under a weakly fair schedule: with no key ever pressed a waiting engine waits for ever and both timers
reach 0; after a halt the run goes on with ticks, the record stays and both timers reach 0; and while a key
is held down, FX0A completes (70_reset_and_hazards.md R389, 60_exceptions.md R357, R359; fairness is the
spec's decision D25, ticks after a halt D26, completion on a held key D19). -/
def Obligations.FairScheduleProgress : Prop :=
  ∀ (σ : Nat → Turn) (s : State), WeaklyFair σ s →
    (s.Blocked → (∀ n, KeysStayReleased (turnsOf σ n)) →
      ∃ n, ∀ m, n ≤ m → ∃ t, runTurns (turnsOf σ m) s = .next t ∧ t.Blocked ∧ t.DT = 0 ∧ t.ST = 0) ∧
    (∀ r, s.status = .halted r → IsRun σ s →
      ∃ n, ∀ m, n ≤ m → ∃ t, runTurns (turnsOf σ m) s = .next t ∧ t.status = .halted r ∧
        t.DT = 0 ∧ t.ST = 0) ∧
    (∀ x, s.status = .running → s.dueInstr = some (.ldKey x) → s.keys ≠ 0 →
      (∀ n k, σ n = .host (.keyUpdate k) → k ≠ 0) →
      ∃ n t, runTurns (turnsOf σ n) s = .next t ∧ t.status = .running ∧ t.pc = s.pc + 2)

/-- Init constructs a block from an image of at most 3584 bytes, whose bytes then stand at 0x200, 0x201, …;
a longer image fails with MemoryLoadOverflow and nothing is constructed (R331, C1). -/
def Obligations.ProgramLoadLimit : Prop :=
  ∀ (c : Config) (image : List Byte),
    (image.length ≤ 3584 → ∃ s, State.init c image = .ok s ∧
      ∀ k v, image[k]? = some v → s.memRead (0x200 + k) = .ok v) ∧
    (image.length > 3584 → State.init c image = .error (.memoryLoadOverflow image.length))

/-- After Init the font stands at FONT_BASE, every byte outside font and program is 0, pc is 0x200, the
engine runs, and every other component is zero, empty or off (70_reset_and_hazards.md R380, R382,
10_state.md R50; the zeros are the spec's decision D6). -/
def Obligations.InitSetsEveryComponent : Prop :=
  ∀ (c : Config) (image : List Byte) (s : State), c.wf → State.init c image = .ok s →
    (∀ k (h : k < 80), s.byte (c.fontBase.toNat + k) = c.fontBytes[k]) ∧
    (∀ a, (a < c.fontBase.toNat ∨ c.fontBase.toNat + 80 ≤ a) →
      (a < 0x200 ∨ 0x200 + image.length ≤ a) → s.byte a = 0) ∧
    s.pc = 0x200 ∧ s.status = .running ∧ (∀ r, s.reg r = 0) ∧ s.I = 0 ∧ s.S = [] ∧ s.DT = 0 ∧
    s.ST = 0 ∧ (∀ px py, Display.pixel s.disp px py = false) ∧ s.keys = 0 ∧ s.cfg = c

/-- State.reset is what Init constructs from an empty program with the model's parameters (log 2, log 15). -/
def Obligations.ResetIsInitOfEmptyProgram : Prop :=
  State.init resetConfig [] = .ok State.reset
end

