-- ==== Sys2Proof/Laws/Encoding.lean ====
section
/-! SUPPORT. The fields of each word format, the words rebuilt from their fields, and the bits the masks of
30_encoding.md R112 keep. -/

namespace Sys2Proof

@[simp] theorem regBits_toFin (x : Reg) : (regBits x).toFin = x := by
  revert x; decide
theorem regBits_of_toFin (v : Nibble) : regBits v.toFin = v := by
  revert v; decide
theorem regBits_toNat (x : Reg) : (regBits x).toNat = x.val := by
  revert x; decide

/-! ### Words and fields as numbers -/

theorem append_toNat {m n : Nat} (a : BitVec m) (b : BitVec n) :
    (a ++ b).toNat = a.toNat * 2 ^ n + b.toNat := by
  rw [BitVec.toNat_append, ← Nat.shiftLeft_add_eq_or_of_lt b.isLt, Nat.shiftLeft_eq]

theorem wordAddr_toNat (f : Nibble) (nnn : Addr) :
    (wordAddr f nnn).toNat = f.toNat * 4096 + nnn.toNat := append_toNat f nnn

theorem wordRegByte_toNat (f : Nibble) (x : Reg) (kk : Byte) :
    (wordRegByte f x kk).toNat = f.toNat * 4096 + x.val * 256 + kk.toNat := by
  have h : (wordRegByte f x kk).toNat = (f ++ regBits x).toNat * 2 ^ 8 + kk.toNat := append_toNat _ _
  rw [h, append_toNat, regBits_toNat]; omega

theorem wordRegReg_toNat (f : Nibble) (x y : Reg) (s : Nibble) :
    (wordRegReg f x y s).toNat = f.toNat * 4096 + x.val * 256 + y.val * 16 + s.toNat := by
  have h : (wordRegReg f x y s).toNat =
      ((f ++ regBits x) ++ regBits y).toNat * 2 ^ 4 + s.toNat := append_toNat _ _
  rw [h, append_toNat, append_toNat, regBits_toNat, regBits_toNat]; omega

theorem famOf_toNat (w : Word) : (famOf w).toNat = w.toNat / 4096 := by
  have := w.isLt
  simp only [famOf, BitVec.extractLsb'_toNat, Nat.shiftRight_eq_div_pow]; omega
theorem xOf_val (w : Word) : (xOf w).val = w.toNat / 256 % 16 := by
  simp only [xOf, BitVec.val_toFin, BitVec.extractLsb'_toNat, Nat.shiftRight_eq_div_pow]
theorem yOf_val (w : Word) : (yOf w).val = w.toNat / 16 % 16 := by
  simp only [yOf, BitVec.val_toFin, BitVec.extractLsb'_toNat, Nat.shiftRight_eq_div_pow]
theorem nOf_toNat (w : Word) : (nOf w).toNat = w.toNat % 16 := by
  simp only [nOf, BitVec.extractLsb'_toNat, Nat.shiftRight_eq_div_pow]; omega
theorem kkOf_toNat (w : Word) : (kkOf w).toNat = w.toNat % 256 := by
  simp only [kkOf, BitVec.extractLsb'_toNat, Nat.shiftRight_eq_div_pow]; omega
theorem nnnOf_toNat (w : Word) : (nnnOf w).toNat = w.toNat % 4096 := by
  simp only [nnnOf, BitVec.extractLsb'_toNat, Nat.shiftRight_eq_div_pow]; omega
theorem wordOfBytes_toNat (hi lo : Byte) : (wordOfBytes hi lo).toNat = hi.toNat * 256 + lo.toNat :=
  append_toNat hi lo
theorem hiByte_toNat (w : Word) : (hiByte w).toNat = w.toNat / 256 := by
  have := w.isLt
  simp only [hiByte, BitVec.extractLsb'_toNat, Nat.shiftRight_eq_div_pow]; omega
theorem loByte_toNat (w : Word) : (loByte w).toNat = w.toNat % 256 := by
  simp only [loByte, BitVec.extractLsb'_toNat, Nat.shiftRight_eq_div_pow]; omega

/-! ### The fields of each format -/

@[simp] theorem famOf_wordAddr (f : Nibble) (nnn : Addr) : famOf (wordAddr f nnn) = f := by
  apply BitVec.eq_of_toNat_eq; rw [famOf_toNat, wordAddr_toNat]; omega
@[simp] theorem nnnOf_wordAddr (f : Nibble) (nnn : Addr) : nnnOf (wordAddr f nnn) = nnn := by
  apply BitVec.eq_of_toNat_eq; rw [nnnOf_toNat, wordAddr_toNat]; omega
@[simp] theorem famOf_wordRegByte (f : Nibble) (x : Reg) (kk : Byte) :
    famOf (wordRegByte f x kk) = f := by
  apply BitVec.eq_of_toNat_eq; rw [famOf_toNat, wordRegByte_toNat]; omega
@[simp] theorem xOf_wordRegByte (f : Nibble) (x : Reg) (kk : Byte) :
    xOf (wordRegByte f x kk) = x := by
  apply Fin.ext; rw [xOf_val, wordRegByte_toNat]; omega
@[simp] theorem kkOf_wordRegByte (f : Nibble) (x : Reg) (kk : Byte) :
    kkOf (wordRegByte f x kk) = kk := by
  apply BitVec.eq_of_toNat_eq; rw [kkOf_toNat, wordRegByte_toNat]; omega
@[simp] theorem famOf_wordRegReg (f : Nibble) (x y : Reg) (s : Nibble) :
    famOf (wordRegReg f x y s) = f := by
  apply BitVec.eq_of_toNat_eq; rw [famOf_toNat, wordRegReg_toNat]; omega
@[simp] theorem xOf_wordRegReg (f : Nibble) (x y : Reg) (s : Nibble) :
    xOf (wordRegReg f x y s) = x := by
  apply Fin.ext; rw [xOf_val, wordRegReg_toNat]; omega
@[simp] theorem yOf_wordRegReg (f : Nibble) (x y : Reg) (s : Nibble) :
    yOf (wordRegReg f x y s) = y := by
  apply Fin.ext; rw [yOf_val, wordRegReg_toNat]; omega
@[simp] theorem nOf_wordRegReg (f : Nibble) (x y : Reg) (s : Nibble) :
    nOf (wordRegReg f x y s) = s := by
  apply BitVec.eq_of_toNat_eq; rw [nOf_toNat, wordRegReg_toNat]; omega

/-! ### A word from its fields -/

theorem wordAddr_of_fields (w : Word) : wordAddr (famOf w) (nnnOf w) = w := by
  apply BitVec.eq_of_toNat_eq; rw [wordAddr_toNat, famOf_toNat, nnnOf_toNat]; omega
theorem wordRegByte_of_fields (w : Word) : wordRegByte (famOf w) (xOf w) (kkOf w) = w := by
  apply BitVec.eq_of_toNat_eq; rw [wordRegByte_toNat, famOf_toNat, xOf_val, kkOf_toNat]; omega
theorem wordRegReg_of_fields (w : Word) : wordRegReg (famOf w) (xOf w) (yOf w) (nOf w) = w := by
  apply BitVec.eq_of_toNat_eq
  rw [wordRegReg_toNat, famOf_toNat, xOf_val, yOf_val, nOf_toNat]; omega
@[simp] theorem wordOfBytes_hiByte_loByte (w : Word) : wordOfBytes (hiByte w) (loByte w) = w := by
  apply BitVec.eq_of_toNat_eq; rw [wordOfBytes_toNat, hiByte_toNat, loByte_toNat]; omega
@[simp] theorem hiByte_wordOfBytes (hi lo : Byte) : hiByte (wordOfBytes hi lo) = hi := by
  apply BitVec.eq_of_toNat_eq; rw [hiByte_toNat, wordOfBytes_toNat]; omega
@[simp] theorem loByte_wordOfBytes (hi lo : Byte) : loByte (wordOfBytes hi lo) = lo := by
  apply BitVec.eq_of_toNat_eq; rw [loByte_toNat, wordOfBytes_toNat]; omega

/-! ### The masks of R112 -/

theorem append_and_append {m n : Nat} (a c : BitVec m) (b d : BitVec n) :
    (a ++ b) &&& (c ++ d) = (a &&& c) ++ (b &&& d) := by
  ext i hi
  simp only [BitVec.getElem_and, BitVec.getElem_append]
  split <;> simp

/-- Mask F000 keeps the family nibble. -/
theorem mask_family (w : Word) : w &&& 0xF000#16 = wordAddr (famOf w) 0#12 := by
  have h : wordAddr (famOf w) (nnnOf w) &&& wordAddr 0xF 0 = wordAddr (famOf w &&& 0xF) (nnnOf w &&& 0) :=
    append_and_append _ _ _ _
  rw [wordAddr_of_fields, show (famOf w &&& 0xF) = famOf w from BitVec.and_allOnes,
    show (nnnOf w &&& 0) = 0 from BitVec.and_zero] at h
  exact h

/-- Mask F0FF keeps the family nibble and the low byte. -/
theorem mask_family_byte (w : Word) : w &&& 0xF0FF#16 = wordRegByte (famOf w) 0 (kkOf w) := by
  have h : wordRegByte (famOf w) (xOf w) (kkOf w) &&& wordRegByte 0xF 0 0xFF =
      ((famOf w ++ regBits (xOf w)) &&& (0xF#4 ++ regBits 0)) ++ (kkOf w &&& 0xFF) :=
    append_and_append _ _ _ _
  rw [wordRegByte_of_fields, append_and_append, show (famOf w &&& 15#4) = famOf w from BitVec.and_allOnes,
    show (kkOf w &&& 0xFF) = kkOf w from BitVec.and_allOnes,
    show regBits (xOf w) &&& regBits 0 = regBits 0 from BitVec.and_zero] at h
  exact h

/-- Mask F00F keeps the family nibble and the low nibble. -/
theorem mask_family_nibble (w : Word) : w &&& 0xF00F#16 = wordRegReg (famOf w) 0 0 (nOf w) := by
  have h : wordRegReg (famOf w) (xOf w) (yOf w) (nOf w) &&& wordRegReg 0xF 0 0 0xF =
      (((famOf w ++ regBits (xOf w)) ++ regBits (yOf w)) &&& ((0xF#4 ++ regBits 0) ++ regBits 0)) ++
        (nOf w &&& 0xF) :=
    append_and_append _ _ _ _
  rw [wordRegReg_of_fields, append_and_append, append_and_append,
    show (famOf w &&& 15#4) = famOf w from BitVec.and_allOnes,
    show (nOf w &&& 0xF) = nOf w from BitVec.and_allOnes,
    show regBits (xOf w) &&& regBits 0 = regBits 0 from BitVec.and_zero,
    show regBits (yOf w) &&& regBits 0 = regBits 0 from BitVec.and_zero] at h
  exact h

end Sys2Proof
end

