-- ==== Sys2Proof/Laws/Display.lean ====
section
/-! SUPPORT. The XOR plot: it toggles exactly the pixels the sprite covers, each once (44_display.md R276),
and collides exactly when one of them was on (R271). -/

namespace Sys2Proof.Machine

theorem Display.pixel_toggle (d : Display) (px qx : Fin 64) (py qy : Fin 32) :
    (Display.toggle d px py).pixel qx qy =
      if qx = px ∧ qy = py then !Display.pixel d px py else Display.pixel d qx qy := by
  by_cases hy : qy = py
  · subst hy
    by_cases hx : qx = px
    · subst hx
      simp [Display.pixel, Display.toggle, Vector.get_eq_getElem]
    · have : qx.val ≠ px.val := fun e => hx (Fin.ext e)
      simp [Display.pixel, Display.toggle, Vector.get_eq_getElem, hx, this]
  · have : py.val ≠ qy.val := fun e => hy (Fin.ext e.symm)
    simp [Display.pixel, Display.toggle, Vector.get_eq_getElem, hy, this]

@[simp] theorem Display.pixel_clear (px : Fin 64) (py : Fin 32) :
    Display.pixel Display.clear px py = false := by
  simp [Display.pixel, Display.clear, Vector.get_eq_getElem]

/-- Displays with the same pixels are equal. -/
theorem Display.ext_of_pixel {d e : Display}
    (h : ∀ px py, Display.pixel d px py = Display.pixel e px py) : d = e := by
  apply Vector.ext
  intro i hi
  apply BitVec.eq_of_getLsbD_eq
  intro j hj
  exact h ⟨j, hj⟩ ⟨i, hi⟩

/-! ### The plot as a list of points -/

/-- A point of the display. -/
abbrev Point := Fin 64 × Fin 32

/-- Points toggled one after the other. -/
def plotPoints : List Point → Display × Bool → Display × Bool
  | [], acc => acc
  | p :: ps, acc => plotPoints ps (plotPixel p.1 p.2 acc)

theorem plotPoints_append (ps qs : List Point) (acc : Display × Bool) :
    plotPoints (ps ++ qs) acc = plotPoints qs (plotPoints ps acc) := by
  induction ps generalizing acc with
  | nil => rfl
  | cons p ps ih => exact ih _

/-- The points of one sprite row. -/
def rowPoints (x : Byte) (py : Fin 32) (b : Byte) (cs : List Nat) : List Point :=
  (cs.filter (spriteBit b)).map fun c => (spriteColumn x c, py)

/-- The points of the sprite rows from `k` on. -/
def spritePoints (x y : Byte) : Nat → List Byte → List Point
  | _, [] => []
  | k, b :: bs =>
    rowPoints x (spriteRow y k) b [0, 1, 2, 3, 4, 5, 6, 7] ++ spritePoints x y (k + 1) bs

theorem plotColumns_eq (x : Byte) (py : Fin 32) (b : Byte) (cs : List Nat) (acc : Display × Bool) :
    plotColumns x py b cs acc = plotPoints (rowPoints x py b cs) acc := by
  induction cs generalizing acc with
  | nil => rfl
  | cons c cs ih =>
    by_cases hb : spriteBit b c = true
    · simp only [plotColumns, hb, if_true, ih, rowPoints, List.filter_cons, List.map_cons, plotPoints]
    · simp only [plotColumns, hb, ih, rowPoints, List.filter_cons]; rfl

theorem plotRows_eq (x y : Byte) (bs : List Byte) (k : Nat) (acc : Display × Bool) :
    plotRows x y k bs acc = plotPoints (spritePoints x y k bs) acc := by
  induction bs generalizing k acc with
  | nil => rfl
  | cons b bs ih =>
    simp only [plotRows, spritePoints, plotPoints_append, plotColumns_eq, ih]

theorem mem_spritePoints (x y : Byte) (bs : List Byte) (k : Nat) (p : Point) :
    p ∈ spritePoints x y k bs ↔ ∃ j c b, bs[j]? = some b ∧ c ≤ 7 ∧ spriteBit b c = true ∧
      p.1 = spriteColumn x c ∧ p.2 = spriteRow y (k + j) := by
  induction bs generalizing k with
  | nil => simp [spritePoints]
  | cons b bs ih =>
    simp only [spritePoints, List.mem_append, ih, rowPoints, List.mem_map, List.mem_filter]
    constructor
    · rintro (⟨c, ⟨hc, hb⟩, rfl⟩ | ⟨j, c, b', hj, hc, hb, h1, h2⟩)
      · exact ⟨0, c, b, rfl, by simp at hc; omega, hb, rfl, rfl⟩
      · exact ⟨j + 1, c, b', by simpa using hj, hc, hb, h1, by rw [h2]; congr 1; omega⟩
    · rintro ⟨j, c, b', hj, hc, hb, h1, h2⟩
      cases j with
      | zero =>
        simp at hj; subst hj
        refine .inl ⟨c, ⟨by simp; omega, hb⟩, Prod.ext h1.symm h2.symm⟩
      | succ j =>
        exact .inr ⟨j, c, b', by simpa using hj, hc, hb, h1, by rw [h2]; congr 1; omega⟩

theorem spriteColumn_inj (x : Byte) {c e : Nat} (hc : c ≤ 7) (he : e ≤ 7)
    (h : spriteColumn x c = spriteColumn x e) : c = e := by
  have := congrArg Fin.val h
  simp only [spriteColumn, Fin.val_ofNat] at this
  omega

theorem spriteRow_inj (y : Byte) {j k : Nat} (hjk : j < k + 32) (hkj : k < j + 32)
    (h : spriteRow y j = spriteRow y k) : j = k := by
  have := congrArg Fin.val h
  simp only [spriteRow, Fin.val_ofNat] at this
  omega

/-- No sprite touches a pixel twice (R276). -/
theorem spritePoints_nodup (x y : Byte) (bs : List Byte) (k : Nat) (h : bs.length ≤ 32) :
    (spritePoints x y k bs).Nodup := by
  induction bs generalizing k with
  | nil => simp [spritePoints]
  | cons b bs ih =>
    simp only [List.length_cons] at h
    refine List.nodup_append.mpr ⟨?_, ih (k + 1) (by omega), fun p hp q hq hpq => ?_⟩
    · apply List.Nodup.map_on _ ((by decide : [0, 1, 2, 3, 4, 5, 6, 7].Nodup).filter _)
      intro c hc e he hce
      have hc7 : c ≤ 7 := by have := (List.mem_filter.mp hc).1; simp at this; omega
      have he7 : e ≤ 7 := by have := (List.mem_filter.mp he).1; simp at this; omega
      exact spriteColumn_inj x hc7 he7 (congrArg Prod.fst hce)
    · subst hpq
      obtain ⟨c, -, rfl⟩ := List.mem_map.mp hp
      obtain ⟨j, _, _, hj, -, -, -, h2⟩ := (mem_spritePoints x y bs (k + 1) _).mp hq
      have hjl : j < bs.length := (List.getElem?_eq_some_iff.mp hj).1
      have := spriteRow_inj y (by omega) (by omega) h2
      omega

/-- What toggling distinct points does. -/
theorem plotPoints_spec (ps : List Point) (hnd : ps.Nodup) (acc : Display × Bool) :
    (∀ px py, (plotPoints ps acc).1.pixel px py =
      (acc.1.pixel px py ^^ decide ((px, py) ∈ ps))) ∧
    ((plotPoints ps acc).2 = true ↔ acc.2 = true ∨ ∃ p ∈ ps, Display.pixel acc.1 p.1 p.2 = true) := by
  induction ps generalizing acc with
  | nil => simp [plotPoints]
  | cons p ps ih =>
    obtain ⟨hp, hnd'⟩ := List.nodup_cons.mp hnd
    obtain ⟨h1, h2⟩ := ih hnd' (plotPixel p.1 p.2 acc)
    refine ⟨fun px py => ?_, ?_⟩
    · rw [plotPoints, h1]
      simp only [plotPixel, Display.pixel_toggle]
      by_cases he : (px, py) = p
      · subst he; simp [hp]
      · have : ¬ (px = p.1 ∧ py = p.2) := fun h => he (Prod.ext h.1 h.2)
        simp [this, he]
    · rw [plotPoints, h2]
      have key : (∃ q ∈ ps, Display.pixel (plotPixel p.1 p.2 acc).1 q.1 q.2 = true) ↔
          ∃ q ∈ ps, Display.pixel acc.1 q.1 q.2 = true := by
        refine exists_congr fun q => and_congr_right fun hq => ?_
        have : ¬ (q.1 = p.1 ∧ q.2 = p.2) := fun h => hp (Prod.ext h.1 h.2 ▸ hq)
        simp [plotPixel, Display.pixel_toggle, this]
      rw [key]
      simp [plotPixel, or_assoc]

theorem mem_spritePoints_iff_covers (x y : Byte) (bs : List Byte) (px : Fin 64) (py : Fin 32) :
    (px, py) ∈ spritePoints x y 0 bs ↔ SpriteCovers x y bs px py := by
  simp [mem_spritePoints, SpriteCovers]

/-- What plot_sprite does, for a sprite of at most 32 rows (R271, R276). -/
theorem plotSprite_spec (x y : Byte) (bs : List Byte) (h : bs.length ≤ 32) (d : Display) :
    (∀ px py, SpriteCovers x y bs px py →
      (plotSprite x y bs d).1.pixel px py = !Display.pixel d px py) ∧
    (∀ px py, ¬ SpriteCovers x y bs px py →
      (plotSprite x y bs d).1.pixel px py = Display.pixel d px py) ∧
    ((plotSprite x y bs d).2 = true ↔
      ∃ px py, SpriteCovers x y bs px py ∧ Display.pixel d px py = true) := by
  obtain ⟨h1, h2⟩ := plotPoints_spec _ (spritePoints_nodup x y bs 0 h) (d, false)
  rw [← plotRows_eq] at h1 h2
  refine ⟨fun px py hc => ?_, fun px py hc => ?_, ?_⟩
  · rw [plotSprite, h1]; simp [mem_spritePoints_iff_covers, hc]
  · rw [plotSprite, h1]; simp [mem_spritePoints_iff_covers, hc]
  · rw [plotSprite, h2]
    constructor
    · rintro (h | ⟨p, hp, hd⟩)
      · simp at h
      · exact ⟨p.1, p.2, (mem_spritePoints_iff_covers x y bs p.1 p.2).mp hp, hd⟩
    · rintro ⟨px, py, hc, hd⟩
      exact .inr ⟨(px, py), (mem_spritePoints_iff_covers x y bs px py).mpr hc, hd⟩

end Sys2Proof.Machine
end

