-- ==== Sys2Proof/Laws/State.lean ====
section
/-! SUPPORT. One lemma per field of State and named update, so that no later proof unfolds an update. -/

namespace Sys2Proof.Machine

@[simp] theorem State.setByte_V (s : State) (a : Nat) (v : Byte) : (s.setByte a v).V = s.V := rfl
@[simp] theorem State.setByte_I (s : State) (a : Nat) (v : Byte) : (s.setByte a v).I = s.I := rfl
@[simp] theorem State.setByte_pc (s : State) (a : Nat) (v : Byte) : (s.setByte a v).pc = s.pc := rfl
@[simp] theorem State.setByte_S (s : State) (a : Nat) (v : Byte) : (s.setByte a v).S = s.S := rfl
@[simp] theorem State.setByte_DT (s : State) (a : Nat) (v : Byte) : (s.setByte a v).DT = s.DT := rfl
@[simp] theorem State.setByte_ST (s : State) (a : Nat) (v : Byte) : (s.setByte a v).ST = s.ST := rfl
@[simp] theorem State.setByte_disp (s : State) (a : Nat) (v : Byte) : (s.setByte a v).disp = s.disp := rfl
@[simp] theorem State.setByte_keys (s : State) (a : Nat) (v : Byte) : (s.setByte a v).keys = s.keys := rfl
@[simp] theorem State.setByte_status (s : State) (a : Nat) (v : Byte) : (s.setByte a v).status = s.status := rfl
@[simp] theorem State.setByte_cfg (s : State) (a : Nat) (v : Byte) : (s.setByte a v).cfg = s.cfg := rfl
@[simp] theorem State.setByte_draws (s : State) (a : Nat) (v : Byte) : (s.setByte a v).draws = s.draws := rfl
@[simp] theorem State.setByte_schedule (s : State) (a : Nat) (v : Byte) : (s.setByte a v).schedule = s.schedule := rfl

@[simp] theorem State.setReg_mem (s : State) (x : Reg) (v : Byte) : (s.setReg x v).mem = s.mem := rfl
@[simp] theorem State.setReg_I (s : State) (x : Reg) (v : Byte) : (s.setReg x v).I = s.I := rfl
@[simp] theorem State.setReg_pc (s : State) (x : Reg) (v : Byte) : (s.setReg x v).pc = s.pc := rfl
@[simp] theorem State.setReg_S (s : State) (x : Reg) (v : Byte) : (s.setReg x v).S = s.S := rfl
@[simp] theorem State.setReg_DT (s : State) (x : Reg) (v : Byte) : (s.setReg x v).DT = s.DT := rfl
@[simp] theorem State.setReg_ST (s : State) (x : Reg) (v : Byte) : (s.setReg x v).ST = s.ST := rfl
@[simp] theorem State.setReg_disp (s : State) (x : Reg) (v : Byte) : (s.setReg x v).disp = s.disp := rfl
@[simp] theorem State.setReg_keys (s : State) (x : Reg) (v : Byte) : (s.setReg x v).keys = s.keys := rfl
@[simp] theorem State.setReg_status (s : State) (x : Reg) (v : Byte) : (s.setReg x v).status = s.status := rfl
@[simp] theorem State.setReg_cfg (s : State) (x : Reg) (v : Byte) : (s.setReg x v).cfg = s.cfg := rfl
@[simp] theorem State.setReg_draws (s : State) (x : Reg) (v : Byte) : (s.setReg x v).draws = s.draws := rfl
@[simp] theorem State.setReg_schedule (s : State) (x : Reg) (v : Byte) : (s.setReg x v).schedule = s.schedule := rfl

@[simp] theorem State.setRegFlag_mem (s : State) (x : Reg) (v f : Byte) : (s.setRegFlag x v f).mem = s.mem := rfl
@[simp] theorem State.setRegFlag_I (s : State) (x : Reg) (v f : Byte) : (s.setRegFlag x v f).I = s.I := rfl
@[simp] theorem State.setRegFlag_pc (s : State) (x : Reg) (v f : Byte) : (s.setRegFlag x v f).pc = s.pc := rfl
@[simp] theorem State.setRegFlag_S (s : State) (x : Reg) (v f : Byte) : (s.setRegFlag x v f).S = s.S := rfl
@[simp] theorem State.setRegFlag_DT (s : State) (x : Reg) (v f : Byte) : (s.setRegFlag x v f).DT = s.DT := rfl
@[simp] theorem State.setRegFlag_ST (s : State) (x : Reg) (v f : Byte) : (s.setRegFlag x v f).ST = s.ST := rfl
@[simp] theorem State.setRegFlag_disp (s : State) (x : Reg) (v f : Byte) : (s.setRegFlag x v f).disp = s.disp := rfl
@[simp] theorem State.setRegFlag_keys (s : State) (x : Reg) (v f : Byte) : (s.setRegFlag x v f).keys = s.keys := rfl
@[simp] theorem State.setRegFlag_status (s : State) (x : Reg) (v f : Byte) : (s.setRegFlag x v f).status = s.status := rfl
@[simp] theorem State.setRegFlag_cfg (s : State) (x : Reg) (v f : Byte) : (s.setRegFlag x v f).cfg = s.cfg := rfl
@[simp] theorem State.setRegFlag_draws (s : State) (x : Reg) (v f : Byte) : (s.setRegFlag x v f).draws = s.draws := rfl
@[simp] theorem State.setRegFlag_schedule (s : State) (x : Reg) (v f : Byte) : (s.setRegFlag x v f).schedule = s.schedule := rfl

@[simp] theorem State.raise_mem (s : State) (e : Error) (a : Word) (w : Option Word) : (s.raise e a w).mem = s.mem := rfl
@[simp] theorem State.raise_V (s : State) (e : Error) (a : Word) (w : Option Word) : (s.raise e a w).V = s.V := rfl
@[simp] theorem State.raise_I (s : State) (e : Error) (a : Word) (w : Option Word) : (s.raise e a w).I = s.I := rfl
@[simp] theorem State.raise_pc (s : State) (e : Error) (a : Word) (w : Option Word) : (s.raise e a w).pc = s.pc := rfl
@[simp] theorem State.raise_S (s : State) (e : Error) (a : Word) (w : Option Word) : (s.raise e a w).S = s.S := rfl
@[simp] theorem State.raise_DT (s : State) (e : Error) (a : Word) (w : Option Word) : (s.raise e a w).DT = s.DT := rfl
@[simp] theorem State.raise_ST (s : State) (e : Error) (a : Word) (w : Option Word) : (s.raise e a w).ST = s.ST := rfl
@[simp] theorem State.raise_disp (s : State) (e : Error) (a : Word) (w : Option Word) : (s.raise e a w).disp = s.disp := rfl
@[simp] theorem State.raise_keys (s : State) (e : Error) (a : Word) (w : Option Word) : (s.raise e a w).keys = s.keys := rfl
@[simp] theorem State.raise_cfg (s : State) (e : Error) (a : Word) (w : Option Word) : (s.raise e a w).cfg = s.cfg := rfl
@[simp] theorem State.raise_draws (s : State) (e : Error) (a : Word) (w : Option Word) : (s.raise e a w).draws = s.draws := rfl
@[simp] theorem State.raise_schedule (s : State) (e : Error) (a : Word) (w : Option Word) : (s.raise e a w).schedule = s.schedule := rfl

@[simp] theorem State.raiseIn_mem (s : State) (w : Word) (e : Error) : (s.raiseIn w e).mem = s.mem := rfl
@[simp] theorem State.raiseIn_V (s : State) (w : Word) (e : Error) : (s.raiseIn w e).V = s.V := rfl
@[simp] theorem State.raiseIn_I (s : State) (w : Word) (e : Error) : (s.raiseIn w e).I = s.I := rfl
@[simp] theorem State.raiseIn_pc (s : State) (w : Word) (e : Error) : (s.raiseIn w e).pc = s.pc := rfl
@[simp] theorem State.raiseIn_S (s : State) (w : Word) (e : Error) : (s.raiseIn w e).S = s.S := rfl
@[simp] theorem State.raiseIn_DT (s : State) (w : Word) (e : Error) : (s.raiseIn w e).DT = s.DT := rfl
@[simp] theorem State.raiseIn_ST (s : State) (w : Word) (e : Error) : (s.raiseIn w e).ST = s.ST := rfl
@[simp] theorem State.raiseIn_disp (s : State) (w : Word) (e : Error) : (s.raiseIn w e).disp = s.disp := rfl
@[simp] theorem State.raiseIn_keys (s : State) (w : Word) (e : Error) : (s.raiseIn w e).keys = s.keys := rfl
@[simp] theorem State.raiseIn_cfg (s : State) (w : Word) (e : Error) : (s.raiseIn w e).cfg = s.cfg := rfl
@[simp] theorem State.raiseIn_draws (s : State) (w : Word) (e : Error) : (s.raiseIn w e).draws = s.draws := rfl
@[simp] theorem State.raiseIn_schedule (s : State) (w : Word) (e : Error) : (s.raiseIn w e).schedule = s.schedule := rfl

@[simp] theorem State.advance_mem (s : State) : (s.advance).mem = s.mem := rfl
@[simp] theorem State.advance_V (s : State) : (s.advance).V = s.V := rfl
@[simp] theorem State.advance_I (s : State) : (s.advance).I = s.I := rfl
@[simp] theorem State.advance_S (s : State) : (s.advance).S = s.S := rfl
@[simp] theorem State.advance_DT (s : State) : (s.advance).DT = s.DT := rfl
@[simp] theorem State.advance_ST (s : State) : (s.advance).ST = s.ST := rfl
@[simp] theorem State.advance_disp (s : State) : (s.advance).disp = s.disp := rfl
@[simp] theorem State.advance_keys (s : State) : (s.advance).keys = s.keys := rfl
@[simp] theorem State.advance_status (s : State) : (s.advance).status = s.status := rfl
@[simp] theorem State.advance_cfg (s : State) : (s.advance).cfg = s.cfg := rfl
@[simp] theorem State.advance_draws (s : State) : (s.advance).draws = s.draws := rfl
@[simp] theorem State.advance_schedule (s : State) : (s.advance).schedule = s.schedule := rfl

@[simp] theorem State.raise_status (s : State) (e : Error) (a : Word) (w : Option Word) :
    (s.raise e a w).status = .halted ⟨e, a, w⟩ := rfl
@[simp] theorem State.raiseIn_status (s : State) (w : Word) (e : Error) :
    (s.raiseIn w e).status = .halted ⟨e, s.pc - 2, some w⟩ := rfl
@[simp] theorem State.advance_pc (s : State) : s.advance.pc = s.pc + 2 := rfl

/-! ### What `skipIf` writes -/

@[simp] theorem State.skipIf_mem (s : State) (b : Bool) : (s.skipIf b).mem = s.mem := by
  cases b <;> rfl
@[simp] theorem State.skipIf_V (s : State) (b : Bool) : (s.skipIf b).V = s.V := by
  cases b <;> rfl
@[simp] theorem State.skipIf_I (s : State) (b : Bool) : (s.skipIf b).I = s.I := by
  cases b <;> rfl
@[simp] theorem State.skipIf_S (s : State) (b : Bool) : (s.skipIf b).S = s.S := by
  cases b <;> rfl
@[simp] theorem State.skipIf_DT (s : State) (b : Bool) : (s.skipIf b).DT = s.DT := by
  cases b <;> rfl
@[simp] theorem State.skipIf_ST (s : State) (b : Bool) : (s.skipIf b).ST = s.ST := by
  cases b <;> rfl
@[simp] theorem State.skipIf_disp (s : State) (b : Bool) : (s.skipIf b).disp = s.disp := by
  cases b <;> rfl
@[simp] theorem State.skipIf_keys (s : State) (b : Bool) : (s.skipIf b).keys = s.keys := by
  cases b <;> rfl
@[simp] theorem State.skipIf_status (s : State) (b : Bool) : (s.skipIf b).status = s.status := by
  cases b <;> rfl
@[simp] theorem State.skipIf_cfg (s : State) (b : Bool) : (s.skipIf b).cfg = s.cfg := by
  cases b <;> rfl
@[simp] theorem State.skipIf_draws (s : State) (b : Bool) : (s.skipIf b).draws = s.draws := by
  cases b <;> rfl
@[simp] theorem State.skipIf_schedule (s : State) (b : Bool) : (s.skipIf b).schedule = s.schedule := by
  cases b <;> rfl
@[simp] theorem State.skipIf_pc (s : State) (b : Bool) :
    (s.skipIf b).pc = if b then s.pc + 2 else s.pc := by
  cases b <;> rfl

/-! ### The accessors see only their own component -/

theorem State.byte_congr {s t : State} (hm : t.mem = s.mem) (hc : t.cfg = s.cfg) (a : Nat) :
    t.byte a = s.byte a := by
  simp [State.byte, hm, hc]
theorem State.reg_congr {s t : State} (h : t.V = s.V) (x : Reg) : t.reg x = s.reg x := by
  simp [State.reg, h]
@[simp] theorem State.reg_setByte (s : State) (a : Nat) (v : Byte) (x : Reg) :
    (s.setByte a v).reg x = s.reg x := rfl
@[simp] theorem State.reg_raise (s : State) (e : Error) (a : Word) (w : Option Word) (x : Reg) :
    (s.raise e a w).reg x = s.reg x := rfl
@[simp] theorem State.reg_raiseIn (s : State) (w : Word) (e : Error) (x : Reg) :
    (s.raiseIn w e).reg x = s.reg x := rfl
@[simp] theorem State.reg_advance (s : State) (x : Reg) : s.advance.reg x = s.reg x := rfl
@[simp] theorem State.reg_skipIf (s : State) (b : Bool) (x : Reg) : (s.skipIf b).reg x = s.reg x := by
  cases b <;> rfl
@[simp] theorem State.byte_setReg (s : State) (x : Reg) (v : Byte) (a : Nat) :
    (s.setReg x v).byte a = s.byte a := rfl
@[simp] theorem State.byte_setRegFlag (s : State) (x : Reg) (v f : Byte) (a : Nat) :
    (s.setRegFlag x v f).byte a = s.byte a := rfl
@[simp] theorem State.byte_raise (s : State) (e : Error) (b : Word) (w : Option Word) (a : Nat) :
    (s.raise e b w).byte a = s.byte a := rfl
@[simp] theorem State.byte_raiseIn (s : State) (w : Word) (e : Error) (a : Nat) :
    (s.raiseIn w e).byte a = s.byte a := rfl
@[simp] theorem State.byte_advance (s : State) (a : Nat) : s.advance.byte a = s.byte a := rfl
@[simp] theorem State.byte_skipIf (s : State) (b : Bool) (a : Nat) :
    (s.skipIf b).byte a = s.byte a := by
  cases b <;> rfl

end Sys2Proof.Machine
end

