-- ==== Sys2Proof/Laws/Registers.lean ====
section
/-! SUPPORT. Reads of a general register after a write, and the result-then-flag order of 42_alu.md R207. -/

namespace Sys2Proof.Machine

@[simp] theorem State.reg_setReg_same (s : State) (x : Reg) (v : Byte) : (s.setReg x v).reg x = v := by
  simp [State.reg, State.setReg, Vector.get_eq_getElem]

theorem State.reg_setReg_of_ne (s : State) {x r : Reg} (v : Byte) (h : r ≠ x) :
    (s.setReg x v).reg r = s.reg r := by
  have : x.val ≠ r.val := fun e => h (Fin.ext e.symm)
  simp [State.reg, State.setReg, Vector.get_eq_getElem, this]

theorem State.reg_setReg (s : State) (x r : Reg) (v : Byte) :
    (s.setReg x v).reg r = if r = x then v else s.reg r := by
  by_cases h : r = x
  · subst h; simp
  · simp [h, State.reg_setReg_of_ne]

/-- VF ends holding the flag, whatever X is. -/
@[simp] theorem State.reg_setRegFlag_VF (s : State) (x : Reg) (v f : Byte) :
    (s.setRegFlag x v f).reg VF = f := by
  simp [State.setRegFlag]

theorem State.reg_setRegFlag (s : State) (x r : Reg) (v f : Byte) :
    (s.setRegFlag x v f).reg r = if r = VF then f else if r = x then v else s.reg r := by
  simp [State.setRegFlag, State.reg_setReg]

theorem mem_regsUpTo (x r : Reg) : r ∈ regsUpTo x ↔ r.val ≤ x.val := by
  revert x r; decide

theorem regsUpTo_length (x : Reg) : (regsUpTo x).length = x.val + 1 := by
  revert x; decide

theorem regsUpTo_getElem? (x : Reg) (k : Nat) (h : k ≤ x.val) :
    (regsUpTo x)[k]? = some ⟨k, by omega⟩ := by
  have hk : k < 16 := by omega
  have : (regsUpTo x)[k]? = some (⟨k, hk⟩ : Fin 16) := by
    have key : ∀ (x k : Fin 16), k.val ≤ x.val → (regsUpTo x)[k.val]? = some k := by decide
    exact key x ⟨k, hk⟩ h
  exact this

end Sys2Proof.Machine
end

