-- ==== Sys2Proof/Laws/Memory.lean ====
section
/-! SUPPORT. Memory: read after write, the canonical form, and what each sequence of accesses does. -/

namespace Sys2Proof.Machine

variable {d : Nat → Byte}

theorem Memory.read_of_forall_ne {m : Memory} {a : Nat} (h : ∀ p ∈ m, p.1 ≠ a) :
    Memory.read d m a = d a := by
  induction m with
  | nil => rfl
  | cons p m ih =>
    have hp := h p (by simp)
    simp only [Memory.read]
    rw [if_neg (fun e => hp e.symm)]
    exact ih fun q hq => h q (by simp [hq])

theorem Memory.read_write {m : Memory} (hm : m.Pairwise fun p q => p.1 < q.1) (a b : Nat) (v : Byte) :
    Memory.read d (Memory.write d m a v) b = if b = a then v else Memory.read d m b := by
  induction m with
  | nil => grind [Memory.write, Memory.read]
  | cons p m ih =>
    obtain ⟨c, w⟩ := p
    obtain ⟨hc, hm'⟩ := List.pairwise_cons.mp hm
    have absent : ∀ e, e ≤ c → Memory.read d m e = d e := fun e he =>
      Memory.read_of_forall_ne fun q hq => by have := hc q hq; simp at this; omega
    simp only [Memory.write]
    split
    · rename_i hac
      have := absent a (by omega)
      grind [Memory.read]
    · split
      · rename_i hac
        subst hac
        have := absent a (by omega)
        grind [Memory.read]
      · simp only [Memory.read, ih hm']
        grind

/-- A write leaves every other address alone, whatever form the list has. -/
theorem Memory.read_write_of_ne (m : Memory) {a b : Nat} (v : Byte) (h : b ≠ a) :
    Memory.read d (Memory.write d m a v) b = Memory.read d m b := by
  induction m with
  | nil => by_cases hv : v = d a <;> simp [Memory.write, Memory.read, hv, h]
  | cons p m ih =>
    obtain ⟨c, w⟩ := p
    simp only [Memory.write]
    split
    · split <;> simp [Memory.read, h]
    · split
      · rename_i hac
        subst hac
        split <;> simp [Memory.read, h]
      · simp only [Memory.read, ih]

theorem Memory.mem_write {m : Memory} {a : Nat} {v : Byte} {p : Host.Cell}
    (h : p ∈ Memory.write d m a v) : p ∈ m ∨ (p = (a, v) ∧ v ≠ d a) := by
  induction m with
  | nil => simp only [Memory.write] at h; split at h <;> simp_all
  | cons q m ih =>
    obtain ⟨c, w⟩ := q
    simp only [Memory.write] at h
    grind

theorem Memory.write_wf {m : Memory} (hm : Memory.wf d m) {a : Nat} (ha : a ≤ topAddress) (v : Byte) :
    Memory.wf d (Memory.write d m a v) := by
  refine ⟨?_, fun p hp => ?_⟩
  · obtain ⟨hs, -⟩ := hm
    induction m with
    | nil => simp only [Memory.write]; split <;> simp
    | cons q m ih =>
      obtain ⟨c, w⟩ := q
      obtain ⟨hc, hm'⟩ := List.pairwise_cons.mp hs
      simp only [Memory.write]
      split
      · split
        · exact hs
        · refine List.pairwise_cons.mpr ⟨fun q hq => ?_, hs⟩
          rcases List.mem_cons.mp hq with rfl | hq
          · assumption
          · have := hc q hq; simp at this ⊢; omega
      · split
        · rename_i h; subst h
          split
          · exact hm'
          · exact List.pairwise_cons.mpr ⟨hc, hm'⟩
        · refine List.pairwise_cons.mpr ⟨fun q hq => ?_, ih hm'⟩
          rcases Memory.mem_write hq with hq | ⟨rfl, -⟩
          · exact hc q hq
          · simp; omega
  · rcases Memory.mem_write hp with hp | ⟨rfl, hv⟩
    · exact hm.2 p hp
    · exact ⟨ha, hv⟩

/-- Equal memories are equal data: the canonical form is determined by what is read. -/
theorem Memory.ext_of_read {m n : Memory} (hm : Memory.wf d m) (hn : Memory.wf d n)
    (h : ∀ a, Memory.read d m a = Memory.read d n a) : m = n := by
  obtain ⟨hms, hmd⟩ := hm
  obtain ⟨hns, hnd⟩ := hn
  induction m generalizing n with
  | nil =>
    cases n with
    | nil => rfl
    | cons q n =>
      have := h q.1
      simp [Memory.read] at this
      exact absurd this.symm (hnd q (by simp)).2
  | cons p m ih =>
    obtain ⟨hpm, hms'⟩ := List.pairwise_cons.mp hms
    cases n with
    | nil =>
      have := h p.1
      simp [Memory.read] at this
      exact absurd this (hmd p (by simp)).2
    | cons q n =>
      obtain ⟨hqn, hns'⟩ := List.pairwise_cons.mp hns
      have low : ∀ {l : Memory} {c e}, (∀ r ∈ l, c < r.1) → e ≤ c → Memory.read d l e = d e :=
        fun hl he => Memory.read_of_forall_ne fun r hr => by have := hl r hr; omega
      have hpd := (hmd p (by simp)).2
      have hqd := (hnd q (by simp)).2
      have h1 : p.1 = q.1 := by
        rcases Nat.lt_trichotomy p.1 q.1 with hlt | heq | hgt
        · have := h p.1
          simp only [Memory.read, if_true, if_neg (Nat.ne_of_lt hlt)] at this
          rw [low (c := q.1) (fun r hr => hqn r hr) (by omega)] at this
          exact absurd this hpd
        · exact heq
        · have := h q.1
          simp only [Memory.read, if_true, if_neg (Nat.ne_of_lt hgt)] at this
          rw [low (c := p.1) (fun r hr => hpm r hr) (by omega)] at this
          exact absurd this.symm hqd
      have h2 : p.2 = q.2 := by
        have := h p.1
        simpa [Memory.read, h1] using this
      have hpq : p = q := Prod.ext h1 h2
      subst hpq
      congr 1
      refine ih (fun a => ?_) hms' (fun r hr => hmd r (by simp [hr])) hns' fun r hr => hnd r (by simp [hr])
      by_cases ha : a = p.1
      · subst ha
        rw [low (c := p.1) (fun r hr => hpm r hr) (Nat.le_refl _),
          low (c := p.1) (fun r hr => hqn r hr) (Nat.le_refl _)]
      · have := h a
        simpa [Memory.read, ha] using this

/-! ### The state's memory -/

/-- Memory's canonical form, said of a state. -/
abbrev State.MemWf (s : State) : Prop := Memory.wf (resetByte s.cfg) s.mem

theorem State.byte_setByte {s : State} (h : s.MemWf) (a b : Nat) (v : Byte) :
    (s.setByte a v).byte b = if b = a then v else s.byte b :=
  Memory.read_write h.1 a b v

theorem State.byte_setByte_of_ne (s : State) {a b : Nat} (v : Byte) (h : b ≠ a) :
    (s.setByte a v).byte b = s.byte b :=
  Memory.read_write_of_ne s.mem v h

theorem State.setByte_memWf {s : State} (h : s.MemWf) {a : Nat} (ha : a ≤ topAddress) (v : Byte) :
    (s.setByte a v).MemWf :=
  Memory.write_wf h ha v

theorem State.memRead_ok {s : State} {a : Nat} (h : a ≤ topAddress) : s.memRead a = .ok (s.byte a) := by
  simp [State.memRead, h]

theorem State.memRead_error {s : State} {a : Nat} (h : ¬ a ≤ topAddress) :
    s.memRead a = .error (.outOfBoundsAddress a) := by
  simp [State.memRead, h]

theorem State.memWrite_ok {s : State} {a : Nat} (h : a ≤ topAddress) (v : Byte) :
    s.memWrite a v = .ok (s.setByte a v) := by
  simp [State.memWrite, h]

theorem State.memWrite_error {s : State} {a : Nat} (h : ¬ a ≤ topAddress) (v : Byte) :
    s.memWrite a v = .error (.outOfBoundsAddress a) := by
  simp [State.memWrite, h]

/-! ### Sequences of accesses -/

/-- Everything `storeBytes` can do: it writes only memory, keeps the canonical form, writes exactly the
bytes whose address is in memory, and raises exactly when one is not, at the lowest such address. -/
structure StoreSpec (s : State) (a : Nat) (vs : List Byte) (r : Accesses) : Prop where
  only  : r.1 = { s with mem := r.1.mem }
  wf    : r.1.MemWf
  bytes : ∀ b, r.1.byte b =
    if a ≤ b ∧ b < a + vs.length ∧ b ≤ topAddress then vs[b - a]?.getD 0 else s.byte b
  error : r.2 = if a + vs.length ≤ topAddress + 1 ∨ vs = [] then none
    else some (.outOfBoundsAddress (max a (topAddress + 1)))

theorem storeBytes_spec (vs : List Byte) : ∀ (s : State) (a : Nat), s.MemWf →
    StoreSpec s a vs (s.storeBytes a vs) := by
  induction vs with
  | nil =>
    intro s a h
    refine ⟨rfl, h, fun b => ?_, by simp [State.storeBytes]⟩
    rw [if_neg (by simp only [List.length_nil]; omega)]; rfl
  | cons v vs ih =>
    intro s a h
    by_cases ha : a ≤ topAddress
    · have e : s.storeBytes a (v :: vs) = (s.setByte a v).storeBytes (a + 1) vs := by
        simp [State.storeBytes, State.memWrite_ok ha]
      obtain ⟨ho, hw, hb, he⟩ := ih (s.setByte a v) (a + 1) (State.setByte_memWf h ha v)
      rw [e]
      refine ⟨by rw [ho]; rfl, hw, fun b => ?_, ?_⟩
      · rw [hb b, State.byte_setByte h]
        by_cases hba : b = a
        · subst hba
          rw [if_neg (by omega), if_pos rfl, if_pos (by simp; omega)]; simp
        · by_cases hin : a + 1 ≤ b ∧ b < a + 1 + vs.length ∧ b ≤ topAddress
          · rw [if_pos hin, if_pos (by simp only [List.length_cons]; omega)]
            obtain ⟨n, rfl⟩ : ∃ n, b = a + 1 + n := ⟨b - (a + 1), by omega⟩
            rw [show a + 1 + n - (a + 1) = n by omega, show a + 1 + n - a = n + 1 by omega]
            simp
          · rw [if_neg hin, if_neg hba, if_neg (by simp only [List.length_cons]; omega)]
      · rw [he]
        simp only [List.length_cons]
        cases vs with
        | nil => simp; omega
        | cons u us =>
          simp only [List.length_cons, reduceCtorEq, or_false]
          split <;> split <;> first | rfl | (exfalso; omega) | (congr 2; omega)
    · have e : s.storeBytes a (v :: vs) = (s, some (.outOfBoundsAddress a)) := by
        simp [State.storeBytes, State.memWrite_error ha]
      rw [e]
      refine ⟨rfl, h, fun b => ?_, ?_⟩
      · rw [if_neg (by omega)]
      · simp only [List.length_cons, reduceCtorEq, or_false]
        rw [if_neg (by omega)]
        congr 2; omega

/-- A store writes only memory, in every state. -/
theorem storeBytes_only (vs : List Byte) : ∀ (s : State) (a : Nat),
    (s.storeBytes a vs).1 = { s with mem := (s.storeBytes a vs).1.mem } := by
  induction vs with
  | nil => intro s a; rfl
  | cons v vs ih =>
    intro s a
    by_cases ha : a ≤ topAddress
    · simp only [State.storeBytes, State.memWrite_ok ha]; rw [ih]; rfl
    · simp only [State.storeBytes, State.memWrite_error ha]

/-- A store leaves every byte outside its own addresses alone, in every state. -/
theorem storeBytes_byte_outside (vs : List Byte) : ∀ (s : State) (a b : Nat),
    b ∉ List.range' a vs.length → (s.storeBytes a vs).1.byte b = s.byte b := by
  induction vs with
  | nil => intro s a b _; rfl
  | cons v vs ih =>
    intro s a b hb
    simp only [List.length_cons, List.range'_succ, List.mem_cons, not_or] at hb
    by_cases ha : a ≤ topAddress
    · simp only [State.storeBytes, State.memWrite_ok ha]
      rw [ih _ _ _ hb.2, State.byte_setByte_of_ne _ _ hb.1]
    · simp only [State.storeBytes, State.memWrite_error ha]

/-- Everything `loadRegs` can do: it writes only registers, loads the registers whose address is in memory,
and raises exactly when one is not, at the lowest such address. -/
structure LoadSpec (s : State) (a : Nat) (xs : List Reg) (r : Accesses) : Prop where
  only   : r.1 = { s with V := r.1.V }
  loaded : ∀ k x, xs[k]? = some x → a + k ≤ topAddress → r.1.reg x = s.byte (a + k)
  kept   : ∀ x, (∀ k, xs[k]? = some x → topAddress < a + k) → r.1.reg x = s.reg x
  error  : r.2 = if a + xs.length ≤ topAddress + 1 ∨ xs = [] then none
    else some (.outOfBoundsAddress (max a (topAddress + 1)))

theorem loadRegs_spec (xs : List Reg) : ∀ (s : State) (a : Nat), xs.Nodup →
    LoadSpec s a xs (s.loadRegs a xs) := by
  induction xs with
  | nil =>
    intro s a _
    exact ⟨rfl, by simp, fun _ _ => rfl, by simp [State.loadRegs]⟩
  | cons x xs ih =>
    intro s a hnd
    obtain ⟨hx, hnd'⟩ := List.nodup_cons.mp hnd
    by_cases ha : a ≤ topAddress
    · have e : s.loadRegs a (x :: xs) = (s.setReg x (s.byte a)).loadRegs (a + 1) xs := by
        simp [State.loadRegs, State.memRead_ok ha]
      obtain ⟨ho, hl, hk, he⟩ := ih (s.setReg x (s.byte a)) (a + 1) hnd'
      rw [e]
      refine ⟨by rw [ho]; rfl, fun k y hy hky => ?_, fun y hy => ?_, ?_⟩
      · cases k with
        | zero =>
          simp at hy; subst hy
          rw [hk x fun k hxk => absurd (List.mem_of_getElem? hxk) hx]
          simp
        | succ k =>
          simp at hy
          have := hl k y hy (by omega)
          rw [this, State.byte_setReg]; congr 1; omega
      · have hne : y ≠ x := fun h => by
          subst h; have := hy 0 (by simp); omega
        rw [hk y fun k hyk => by have := hy (k + 1) (by simpa using hyk); omega]
        exact State.reg_setReg_of_ne _ _ hne
      · rw [he]
        simp only [List.length_cons]
        cases xs with
        | nil => simp; omega
        | cons u us =>
          simp only [List.length_cons, reduceCtorEq, or_false]
          split <;> split <;> first | rfl | (exfalso; omega) | (congr 2; omega)
    · have e : s.loadRegs a (x :: xs) = (s, some (.outOfBoundsAddress a)) := by
        simp [State.loadRegs, State.memRead_error ha]
      rw [e]
      refine ⟨rfl, fun k y _ hky => by omega, fun _ _ => rfl, ?_⟩
      simp only [List.length_cons, reduceCtorEq, or_false]
      rw [if_neg (by omega)]
      congr 2; omega

theorem regsUpTo_nodup (x : Reg) : (regsUpTo x).Nodup := by
  revert x; decide

/-- Everything `readBytes` can answer: the bytes, when all of them are in memory; otherwise the lowest
address that is not. -/
theorem readBytes_spec (n : Nat) : ∀ (s : State) (a : Nat),
    s.readBytes a n = if a + n ≤ topAddress + 1 ∨ n = 0 then
      .ok ((List.range' a n).map s.byte)
    else .error (.outOfBoundsAddress (max a (topAddress + 1))) := by
  induction n with
  | zero => intro s a; simp [State.readBytes]
  | succ n ih =>
    intro s a
    simp only [State.readBytes]
    by_cases ha : a ≤ topAddress
    · rw [State.memRead_ok ha, ih s (a + 1)]
      by_cases hn : a + 1 + n ≤ topAddress + 1
      · simp only [hn, true_or, if_true]
        rw [if_pos (by omega)]
        simp [List.range'_succ]
      · by_cases h0 : n = 0
        · subst h0
          exfalso; omega
        · simp only [hn, h0, or_self, if_false]
          rw [if_neg (by omega)]
          congr 2; omega
    · rw [State.memRead_error ha, if_neg (by omega), show max a (topAddress + 1) = a by omega]

/-! ### The program image -/

theorem storeImage_only (vs : List Byte) : ∀ (s : State) (a : Nat),
    s.storeImage a vs = { s with mem := (s.storeImage a vs).mem } := by
  induction vs with
  | nil => intro s a; rfl
  | cons v vs ih => intro s a; simp only [State.storeImage]; rw [ih]; rfl

theorem storeImage_spec (vs : List Byte) : ∀ (s : State) (a : Nat), s.MemWf →
    a + vs.length ≤ topAddress + 1 →
    (s.storeImage a vs).MemWf ∧ ∀ b, (s.storeImage a vs).byte b =
      if a ≤ b ∧ b < a + vs.length then vs[b - a]?.getD 0 else s.byte b := by
  induction vs with
  | nil =>
    intro s a h _
    refine ⟨h, fun b => ?_⟩
    rw [if_neg (by simp only [List.length_nil]; omega)]; rfl
  | cons v vs ih =>
    intro s a h hl
    simp only [List.length_cons] at hl
    obtain ⟨hw, hb⟩ := ih (s.setByte a v) (a + 1) (State.setByte_memWf h (by omega) v) (by omega)
    refine ⟨hw, fun b => ?_⟩
    have e : s.storeImage a (v :: vs) = (s.setByte a v).storeImage (a + 1) vs := rfl
    rw [e, hb b, State.byte_setByte h]
    by_cases hba : b = a
    · subst hba
      rw [if_neg (by omega), if_pos rfl, if_pos (by simp)]; simp
    · by_cases hin : a + 1 ≤ b ∧ b < a + 1 + vs.length
      · rw [if_pos hin, if_pos (by simp only [List.length_cons]; omega)]
        obtain ⟨n, rfl⟩ : ∃ n, b = a + 1 + n := ⟨b - (a + 1), by omega⟩
        rw [show a + 1 + n - (a + 1) = n by omega, show a + 1 + n - a = n + 1 by omega]
        simp
      · rw [if_neg hin, if_neg hba, if_neg (by simp only [List.length_cons]; omega)]

theorem resetWith_memWf (c : Config) : (State.resetWith c).MemWf := by
  simp [State.MemWf, State.resetWith, Memory.wf]

/-- Init constructs a block exactly from an image of at most 3584 bytes (70_reset_and_hazards.md R380). -/
theorem State.init_eq_ok {c : Config} {image : List Byte} {s : State} : State.init c image = .ok s ↔
    image.length ≤ maxProgramLength ∧ s = (State.resetWith c).storeImage loadAddress image := by
  unfold State.init
  split
  · simp; omega
  · simp [eq_comm]; omega

/-- What Init leaves in memory. -/
theorem State.init_byte {c : Config} {image : List Byte} {s : State} (h : State.init c image = .ok s) :
    s.MemWf ∧ ∀ a, s.byte a =
      if 0x200 ≤ a ∧ a < 0x200 + image.length then image[a - 0x200]?.getD 0 else resetByte c a := by
  obtain ⟨hl, rfl⟩ := State.init_eq_ok.mp h
  exact storeImage_spec image _ loadAddress (resetWith_memWf c)
    (by simp only [loadAddress, topAddress, maxProgramLength] at *; omega)

end Sys2Proof.Machine
end

