-- ==== Sys2Proof/Laws/Frames.lean ====
section
/-! SUPPORT. Every instruction answers a next state and writes at most what `mayWrite` lists: said once, so
that claims about all instructions need not unfold the meanings. -/

namespace Sys2Proof.Machine

/-- The components an instruction can write, in any state, a halt included. -/
def mayWrite (s : State) : Instr → Writes
  | .cls => { disp := true }
  | .ret | .call _ => { pc := true, S := true, status := true }
  | .jp _ | .jpV0 _ | .seImm _ _ | .sneImm _ _ | .seReg _ _ _ | .sneReg _ _ _ | .skp _ | .sknp _ =>
    { pc := true }
  | .ldImm x _ | .addImm x _ | .ldReg x _ | .orReg x _ | .andReg x _ | .xorReg x _ | .ldFromDt x =>
    { regs := [x] }
  | .addReg x _ | .subReg x _ | .subnReg x _ | .shr x _ | .shl x _ => { regs := [x, VF] }
  | .rnd x _ => { regs := [x], draws := true }
  | .ldI _ | .addI _ | .ldFont _ => { I := true }
  | .drw _ _ _ => { regs := [VF], disp := true, status := true }
  | .ldKey x => { regs := [x], pc := true }
  | .ldDt _ => { DT := true }
  | .ldSt _ => { ST := true }
  | .ldBcd _ => { bytes := List.range' s.I.toNat 3, status := true }
  | .stRegs x => { bytes := List.range' s.I.toNat (x.val + 1), status := true }
  | .ldRegs x => { regs := regsUpTo x, status := true }

theorem setReg_unchanged (s : State) (x : Reg) (v : Byte) (w : Writes) (h : x ∈ w.regs) :
    UnchangedExcept w s (s.setReg x v) := by
  constructor <;> intros <;> try rfl
  exact State.reg_setReg_of_ne _ _ fun e => by subst e; contradiction

theorem setRegFlag_unchanged (s : State) (x : Reg) (v f : Byte) :
    UnchangedExcept { regs := [x, VF] } s (s.setRegFlag x v f) := by
  constructor <;> intros <;> try rfl
  rename_i r hr
  simp only [List.mem_cons, List.not_mem_nil, or_false, not_or] at hr
  simp [State.reg_setRegFlag, hr.1, hr.2]

theorem skipIf_unchanged (s : State) (b : Bool) : UnchangedExcept { pc := true } s (s.skipIf b) := by
  cases b <;> constructor <;> intros <;> first | rfl | contradiction

theorem raiseIn_unchanged (s : State) (word : Word) (e : Error) (w : Writes) (h : w.status = true) :
    UnchangedExcept w s (s.raiseIn word e) := by
  constructor <;> intros <;> first | rfl | simp_all

/-- What a meaning that ends in `finish` answers: the accesses it made, and a halt if one raised. -/
theorem finish_next (i : Instr) (r : Accesses) :
    ∃ t, finish i r = .next t ∧ t = match r.2 with
      | none => r.1
      | some e => r.1.raiseIn (encode i) e := by
  obtain ⟨s, _ | e⟩ := r <;> exact ⟨_, rfl, rfl⟩

theorem finish_store_unchanged (s : State) (i : Instr) (a : Nat) (vs : List Byte) :
    ∃ t, finish i (s.storeBytes a vs) = .next t ∧
      UnchangedExcept { bytes := List.range' a vs.length, status := true } s t := by
  obtain ⟨t, ht, rfl⟩ := finish_next i (s.storeBytes a vs)
  refine ⟨_, ht, ?_⟩
  have ho := storeBytes_only vs s a
  have hb := storeBytes_byte_outside vs s a
  generalize s.storeBytes a vs = r at ho hb ⊢
  obtain ⟨u, _ | e⟩ := r
  · constructor <;> intros <;> first | exact hb _ ‹_› | (rw [ho]; done) | (rw [ho]; rfl)
  · constructor <;> intros <;> first | exact hb _ ‹_› | (rw [ho]; rfl) | contradiction

theorem finish_load_unchanged (s : State) (i : Instr) (a : Nat) (xs : List Reg) (h : xs.Nodup) :
    ∃ t, finish i (s.loadRegs a xs) = .next t ∧
      UnchangedExcept { regs := xs, status := true } s t := by
  obtain ⟨t, ht, rfl⟩ := finish_next i (s.loadRegs a xs)
  refine ⟨_, ht, ?_⟩
  obtain ⟨ho, -, hk, -⟩ := loadRegs_spec xs s a h
  generalize s.loadRegs a xs = r at ho hk ⊢
  have hreg : ∀ x, x ∉ xs → r.1.reg x = s.reg x := fun x hx =>
    hk x fun k hxk => absurd (List.mem_of_getElem? hxk) hx
  obtain ⟨u, _ | e⟩ := r
  · constructor <;> intros <;> first | exact hreg _ ‹_› | (rw [ho]; done) | (rw [ho]; rfl)
  · constructor <;> intros <;> first | exact hreg _ ‹_› | (rw [ho]; rfl) | contradiction

/-- A store whose addresses are all in memory completes. -/
theorem finish_store_completes {s : State} (i : Instr) {a : Nat} {vs : List Byte} (hm : s.MemWf)
    (h : a + vs.length ≤ topAddress + 1) :
    ∃ t, finish i (s.storeBytes a vs) = .next t ∧ (∀ k v, vs[k]? = some v → t.byte (a + k) = v) ∧
      UnchangedExcept { bytes := List.range' a vs.length } s t := by
  obtain ⟨ho, -, hb, he⟩ := storeBytes_spec vs s a hm
  obtain ⟨t, ht, e⟩ := finish_next i (s.storeBytes a vs)
  rw [he, if_pos (.inl h)] at e
  subst e
  refine ⟨_, ht, fun k v hk => ?_, ?_⟩
  · have := (List.getElem?_eq_some_iff.mp hk).1
    simp only [hb]
    rw [if_pos (by omega)]; simp [hk]
  · have hx := storeBytes_byte_outside vs s a
    generalize s.storeBytes a vs = r at ho hx
    constructor <;> intros <;> first | exact hx _ ‹_› | (rw [ho]; done) | (rw [ho]; rfl)

/-- A store that reaches an address above 0xFFF halts at the first one, with the bytes below it stored. -/
theorem finish_store_halts {s : State} (i : Instr) {a : Nat} {vs : List Byte} (hm : s.MemWf)
    (hv : vs ≠ []) (h : topAddress + 1 < a + vs.length) :
    ∃ t, finish i (s.storeBytes a vs) = .next t ∧
      t.status = .halted ⟨.outOfBoundsAddress (max a (topAddress + 1)), s.pc - 2, some (encode i)⟩ ∧
      (∀ k v, vs[k]? = some v → a + k ≤ topAddress → t.byte (a + k) = v) ∧
      UnchangedExcept
        { bytes := (List.range' a vs.length).filter (fun b => decide (b ≤ topAddress)),
          status := true } s t := by
  obtain ⟨ho, -, hb, he⟩ := storeBytes_spec vs s a hm
  obtain ⟨t, ht, e⟩ := finish_next i (s.storeBytes a vs)
  rw [he, if_neg (by simp only [hv, or_false]; omega)] at e
  subst e
  refine ⟨_, ht, ?_, fun k v hk ha => ?_, ?_⟩
  · simp only [State.raiseIn_status]; rw [ho]
  · have := (List.getElem?_eq_some_iff.mp hk).1
    simp only [State.byte_raiseIn, hb]
    rw [if_pos (by omega)]; simp [hk]
  · have hx : ∀ b, b ∉ (List.range' a vs.length).filter (fun b => decide (b ≤ topAddress)) →
        (s.storeBytes a vs).1.byte b = s.byte b := fun b hn => by
      rw [hb, if_neg fun ⟨h1, h2, h3⟩ => hn (by simp [List.mem_range'_1]; omega)]
    generalize s.storeBytes a vs = r at ho hx
    constructor <;> intros <;> first | exact hx _ ‹_› | (rw [ho]; rfl) | contradiction

/-- Every instruction, in every state, answers a next state and changes at most what it may write. -/
theorem exec_next_unchanged (i : Instr) (s : State) :
    ∃ t, exec i s = .next t ∧ UnchangedExcept (mayWrite s i) s t := by
  cases i with
  | cls => exact ⟨_, rfl, by constructor <;> intros <;> first | rfl | contradiction⟩
  | ret =>
    simp only [exec, execRet, State.pop]
    cases s.S.getLast? with
    | none => exact ⟨_, rfl, raiseIn_unchanged _ _ _ _ rfl⟩
    | some a => exact ⟨_, rfl, by constructor <;> intros <;> first | rfl | contradiction⟩
  | call nnn =>
    simp only [exec, execCall, State.push]
    split
    · rename_i h; split at h
      · cases h; exact ⟨_, rfl, by constructor <;> intros <;> first | rfl | contradiction⟩
      · cases h
    · exact ⟨_, rfl, raiseIn_unchanged _ _ _ _ rfl⟩
  | jp | jpV0 | ldI | addI | ldFont | ldDt | ldSt =>
    exact ⟨_, rfl, by constructor <;> intros <;> first | rfl | contradiction⟩
  | seImm | sneImm | seReg | sneReg | skp | sknp => exact ⟨_, rfl, skipIf_unchanged _ _⟩
  | ldImm | addImm | ldReg | orReg | andReg | xorReg | ldFromDt =>
    exact ⟨_, rfl, setReg_unchanged _ _ _ _ (List.mem_singleton.mpr rfl)⟩
  | addReg | subReg | subnReg | shr | shl => exact ⟨_, rfl, setRegFlag_unchanged _ _ _ _⟩
  | rnd x kk =>
    have h := setReg_unchanged s x (s.nextDraw &&& kk) { regs := [x] } (List.mem_singleton.mpr rfl)
    exact ⟨_, rfl, by constructor <;> intros <;> first | exact h.regs _ ‹_› | rfl | contradiction⟩
  | drw x y n =>
    simp only [exec, execDrw]
    cases s.readBytes s.I.toNat n with
    | error e => exact ⟨_, rfl, raiseIn_unchanged _ _ _ _ rfl⟩
    | ok bs =>
      refine ⟨_, rfl, ?_⟩
      constructor <;> intros <;> first | rfl | contradiction | skip
      rename_i r hr
      exact State.reg_setReg_of_ne _ _ fun e => hr (by simp [mayWrite, e])
  | ldKey x =>
    simp only [exec, execLdKey]
    cases s.lowestKey with
    | none => exact ⟨_, rfl, by constructor <;> intros <;> first | rfl | contradiction⟩
    | some k => exact ⟨_, rfl, setReg_unchanged _ _ _ _ (List.mem_singleton.mpr rfl)⟩
  | ldBcd x => exact finish_store_unchanged s _ _ _
  | stRegs x =>
    have h := finish_store_unchanged s (.stRegs x) s.I.toNat ((regsUpTo x).map s.reg)
    simpa [exec, execStRegs, mayWrite, regsUpTo_length] using h
  | ldRegs x => exact finish_load_unchanged s _ _ _ (regsUpTo_nodup x)

end Sys2Proof.Machine
end

