-- ==== Sys2Proof/Laws/Cycle.lean ====
section
/-! SUPPORT. What a fetch, a raise, a cycle, a turn and a step can do, each said once. -/

namespace Sys2Proof.Machine

/-! ### Fetch -/

theorem fetch_of_le {s : State} (h : s.pc.toNat ≤ 0xFFE) :
    fetch s = .ok (wordOfBytes (s.byte s.pc.toNat) (s.byte (s.pc.toNat + 1))) := by
  have h1 : s.pc.toNat ≤ topAddress := by simp only [topAddress]; omega
  have h2 : s.pc.toNat + 1 ≤ topAddress := by simp only [topAddress]; omega
  simp [fetch, State.memRead_ok h1, State.memRead_ok h2]

theorem fetch_of_gt {s : State} (h : s.pc.toNat > 0xFFE) :
    fetch s = .error (.outOfBoundsAddress (max s.pc.toNat 0x1000)) := by
  by_cases h1 : s.pc.toNat ≤ topAddress
  · have h2 : ¬ s.pc.toNat + 1 ≤ topAddress := by simp only [topAddress]; omega
    have e : s.pc.toNat + 1 = max s.pc.toNat 0x1000 := by simp only [topAddress] at h1; omega
    simp [fetch, State.memRead_ok h1, State.memRead_error h2, ← e]
  · have e : max s.pc.toNat 0x1000 = s.pc.toNat := by simp only [topAddress] at h1; omega
    simp [fetch, State.memRead_error h1, e]

theorem fetch_ok_iff (s : State) (w : Word) :
    fetch s = .ok w ↔ s.pc.toNat ≤ 0xFFE ∧
      w = wordOfBytes (s.byte s.pc.toNat) (s.byte (s.pc.toNat + 1)) := by
  by_cases h : s.pc.toNat ≤ 0xFFE
  · simp [fetch_of_le h, h, eq_comm]
  · simp [fetch_of_gt (Nat.lt_of_not_le h), h]

theorem fetch_error_iff (s : State) (e : Error) :
    fetch s = .error e ↔ s.pc.toNat > 0xFFE ∧ e = .outOfBoundsAddress (max s.pc.toNat 0x1000) := by
  by_cases h : s.pc.toNat ≤ 0xFFE
  · simp [fetch_of_le h]; omega
  · have h := Nat.lt_of_not_le h
    simp [fetch_of_gt h, h, eq_comm]

/-- The advance does not wrap after a successful fetch (40_cycle.md R141). -/
theorem advance_toNat {s : State} (h : s.pc.toNat ≤ 0xFFE) : s.advance.pc.toNat = s.pc.toNat + 2 := by
  simp only [State.advance_pc]
  bv_omega

theorem advance_sub_two (s : State) : s.advance.pc - 2 = s.pc := by
  simp only [State.advance_pc]
  bv_omega

/-! ### Raises inside an instruction -/

/-- The errors an instruction can raise (60_exceptions.md R330). -/
def MayRaise : Instr → Error → Prop
  | .call _, e => e = .stackOverflow
  | .ret, e => e = .stackUnderflow
  | .drw _ _ _, e | .ldBcd _, e | .stRegs _, e | .ldRegs _, e => ∃ a, topAddress < a ∧ e = .outOfBoundsAddress a
  | _, _ => False

theorem storeBytes_error {s : State} {a : Nat} {vs : List Byte} {e : Error}
    (h : (s.storeBytes a vs).2 = some e) : ∃ b, topAddress < b ∧ e = .outOfBoundsAddress b := by
  induction vs generalizing s a with
  | nil => simp [State.storeBytes] at h
  | cons v vs ih =>
    by_cases ha : a ≤ topAddress
    · simp only [State.storeBytes, State.memWrite_ok ha] at h; exact ih h
    · simp only [State.storeBytes, State.memWrite_error ha, Option.some.injEq] at h
      exact ⟨a, by omega, h.symm⟩

theorem loadRegs_error {s : State} {a : Nat} {xs : List Reg} {e : Error}
    (h : (s.loadRegs a xs).2 = some e) : ∃ b, topAddress < b ∧ e = .outOfBoundsAddress b := by
  induction xs generalizing s a with
  | nil => simp [State.loadRegs] at h
  | cons v vs ih =>
    by_cases ha : a ≤ topAddress
    · simp only [State.loadRegs, State.memRead_ok ha] at h; exact ih h
    · simp only [State.loadRegs, State.memRead_error ha, Option.some.injEq] at h
      exact ⟨a, by omega, h.symm⟩

/-- What an instruction does to the status: nothing, or a halt with its own word, the pc it was fetched from
and an error it may raise, with pc as it was. -/
theorem exec_status {i : Instr} {s t : State} (h : exec i s = .next t) :
    t.status = s.status ∨
    ∃ e, t.status = .halted ⟨e, s.pc - 2, some (encode i)⟩ ∧ t.pc = s.pc ∧ MayRaise i e := by
  obtain ⟨u, hu, hf⟩ := exec_next_unchanged i s
  rw [hu] at h; cases h
  have finished : ∀ r : Accesses, r.1.status = s.status → r.1.pc = s.pc →
      (∀ e, r.2 = some e → MayRaise i e) → exec i s = finish i r → t.status = s.status ∨
      ∃ e, t.status = .halted ⟨e, s.pc - 2, some (encode i)⟩ ∧ t.pc = s.pc ∧ MayRaise i e := by
    rintro ⟨v, _ | e⟩ h1 h2 h3 h4 <;> rw [hu] at h4 <;> cases h4
    · exact .inl h1
    · simp only at h2
      exact .inr ⟨e, by simp [h2], by simp [h2], h3 e rfl⟩
  cases i with
  | ret =>
    simp only [exec, execRet, State.pop] at hu
    cases hS : s.S.getLast? with
    | none => rw [hS] at hu; cases hu; exact .inr ⟨_, rfl, rfl, rfl⟩
    | some a => rw [hS] at hu; cases hu; exact .inl rfl
  | call nnn =>
    simp only [exec, execCall, State.push] at hu
    split at hu
    · rename_i h; split at h <;> cases h; cases hu; exact .inl rfl
    · rename_i h; split at h <;> cases h; cases hu; exact .inr ⟨_, rfl, rfl, rfl⟩
  | drw x y n =>
    simp only [exec, execDrw, readBytes_spec] at hu
    split at hu
    · rename_i h; split at h <;> cases h; cases hu
      exact .inr ⟨_, rfl, rfl, _, Nat.lt_of_lt_of_le (Nat.lt_succ_self _) (Nat.le_max_right _ _), rfl⟩
    · cases hu; exact .inl rfl
  | ldBcd x =>
    have ho := storeBytes_only (bcdDigits (s.reg x)) s s.I.toNat
    exact finished _ (by rw [ho]) (by rw [ho]) (fun e he => storeBytes_error he) rfl
  | stRegs x =>
    have ho := storeBytes_only ((regsUpTo x).map s.reg) s s.I.toNat
    exact finished _ (by rw [ho]) (by rw [ho]) (fun e he => storeBytes_error he) rfl
  | ldRegs x =>
    have ho := (loadRegs_spec (regsUpTo x) s s.I.toNat (regsUpTo_nodup x)).only
    exact finished _ (by rw [ho]) (by rw [ho]) (fun e he => loadRegs_error he) rfl
  | _ => exact .inl (hf.status rfl)

/-! ### Cycle, turn and step -/

/-- Everything a cycle that answers a next state can have done. -/
inductive CycleCase (s t : State) : Prop where
  | fetchFault (e : Error) (hf : fetch s = .error e) (ht : t = s.raise e s.pc none)
  | instr (w : Word) (i : Instr) (hf : fetch s = .ok w) (hd : decode w = .instr i)
      (hx : exec i s.advance = .next t)
  | unknownFatal (w u : Word) (hf : fetch s = .ok w) (hd : decode w = .unknown u)
      (hp : s.cfg.unknownPolicy = .fatal) (ht : t = s.advance.raiseIn u (.unknownOpcode u))
  | unknownNop (w u : Word) (hf : fetch s = .ok w) (hd : decode w = .unknown u)
      (hp : s.cfg.unknownPolicy = .nop) (ht : t = s.advance)

/-- A cycle answers a next state exactly when the engine runs. -/
theorem cycle_cases {s t : State} (h : cycle s = .next t) : s.status = .running ∧ CycleCase s t := by
  simp only [cycle] at h
  cases hs : s.status with
  | halted r => rw [hs] at h; cases h
  | running =>
    refine ⟨rfl, ?_⟩
    rw [hs] at h
    cases hf : fetch s with
    | error e => rw [hf] at h; cases h; exact .fetchFault e hf rfl
    | ok w =>
      rw [hf] at h
      simp only [execute] at h
      cases hd : decode w with
      | instr i => rw [hd] at h; exact .instr w i hf hd h
      | unknown u =>
        rw [hd] at h
        simp only [executeUnknown] at h
        cases hp : s.cfg.unknownPolicy with
        | fatal => simp only [State.advance_cfg, hp] at h; cases h; exact .unknownFatal w u hf hd hp rfl
        | nop => simp only [State.advance_cfg, hp] at h; cases h; exact .unknownNop w u hf hd hp rfl

theorem cycle_of_instr {s : State} {w : Word} {i : Instr} (hs : s.status = .running)
    (hf : fetch s = .ok w) (hd : decode w = .instr i) : cycle s = exec i s.advance := by
  simp [cycle, hs, hf, execute, hd]

theorem cycle_of_fetch_error {s : State} {e : Error} (hs : s.status = .running)
    (hf : fetch s = .error e) : cycle s = .next (s.raise e s.pc none) := by
  simp [cycle, hs, hf]

theorem cycle_of_halted {s : State} {r : HaltRecord} (hs : s.status = .halted r) :
    cycle s = .fault (.halted r) := by
  simp [cycle, hs]

/-- A running engine's cycle always answers. -/
theorem cycle_next_of_running {s : State} (hs : s.status = .running) : ∃ t, cycle s = .next t := by
  simp only [cycle, hs]
  cases fetch s with
  | error e => exact ⟨_, rfl⟩
  | ok w =>
    simp only [execute]
    cases decode w with
    | instr i => obtain ⟨t, ht, -⟩ := exec_next_unchanged i s.advance; exact ⟨t, ht⟩
    | unknown u => simp only [executeUnknown]; cases s.advance.cfg.unknownPolicy <;> exact ⟨_, rfl⟩

theorem dueInstr_eq_some {s : State} {i : Instr} :
    s.dueInstr = some i ↔ ∃ w, fetch s = .ok w ∧ decode w = .instr i := by
  simp only [State.dueInstr]
  cases fetch s with
  | error e => simp
  | ok w => cases h : decode w <;> simp [h]

theorem takeTurn_cycle (s : State) : takeTurn .cycle s = cycle s := rfl
theorem takeTurn_host (h : HostStep) (s : State) : takeTurn (.host h) s = .next (hostStep h s) := rfl

theorem step_of_nil {s : State} (h : s.schedule = []) : step s = cycle s := by
  simp [step, State.nextTurn, h, takeTurn]

theorem step_of_cons {s : State} {t : Turn} {ts : List Turn} (h : s.schedule = t :: ts) :
    step s = takeTurn t { s with schedule := ts } := by
  simp [step, State.nextTurn, h]

theorem tickDown_toNat (t : Byte) : (tickDown t).toNat = t.toNat - 1 := by
  simp only [tickDown]
  split <;> bv_omega

end Sys2Proof.Machine
end

