-- ==== Sys2Proof/Laws/PerInstr.lean ====
section
/-! SUPPORT. Statements about every instruction as syntax, one lemma per constructor. -/

namespace Sys2Proof.Laws

/-! ### Family MatchesOpcodeRow: an instruction's word matches the row of its mnemonic -/

/-- The word of the instruction matches the row of 30_encoding.md R112 that carries its mnemonic. -/
def MatchesOpcodeRow.Statement (i : Instr) : Prop :=
  ∃ r ∈ opcodeRows, r.mnemonic = i.mnemonic ∧ r.matchesWord (encode i) = true

theorem matchesOpcodeRow_addr (name : String) (f : Nibble) (nnn : Addr) :
    OpcodeRow.matchesWord ⟨name, 0xF000, wordAddr f 0⟩ (wordAddr f nnn) = true := by
  simp [OpcodeRow.matchesWord, mask_family]

theorem matchesOpcodeRow_regImm (name : String) (f : Nibble) (x : Reg) (kk : Byte) :
    OpcodeRow.matchesWord ⟨name, 0xF000, wordAddr f 0⟩ (wordRegByte f x kk) = true := by
  simp [OpcodeRow.matchesWord, mask_family]

theorem matchesOpcodeRow_regOp (name : String) (f : Nibble) (x : Reg) (kk : Byte) :
    OpcodeRow.matchesWord ⟨name, 0xF0FF, wordRegByte f 0 kk⟩ (wordRegByte f x kk) = true := by
  simp [OpcodeRow.matchesWord, mask_family_byte]

theorem matchesOpcodeRow_regRegAny (name : String) (f : Nibble) (x y : Reg) (s : Nibble) :
    OpcodeRow.matchesWord ⟨name, 0xF000, wordAddr f 0⟩ (wordRegReg f x y s) = true := by
  simp [OpcodeRow.matchesWord, mask_family]

theorem matchesOpcodeRow_regReg (name : String) (f : Nibble) (x y : Reg) (s : Nibble) :
    OpcodeRow.matchesWord ⟨name, 0xF00F, wordRegReg f 0 0 s⟩ (wordRegReg f x y s) = true := by
  simp [OpcodeRow.matchesWord, mask_family_nibble]

theorem MatchesOpcodeRow.cls :
    MatchesOpcodeRow.Statement .cls :=
  ⟨⟨"CLS", 0xFFFF, 0x00E0⟩, by decide, rfl, rfl⟩
theorem MatchesOpcodeRow.ret :
    MatchesOpcodeRow.Statement .ret :=
  ⟨⟨"RET", 0xFFFF, 0x00EE⟩, by decide, rfl, rfl⟩
theorem MatchesOpcodeRow.jp (nnn : Addr) :
    MatchesOpcodeRow.Statement (.jp nnn) :=
  ⟨⟨"JP_addr", 0xF000, 0x1000⟩, by decide, rfl, matchesOpcodeRow_addr _ 0x1 nnn⟩
theorem MatchesOpcodeRow.call (nnn : Addr) :
    MatchesOpcodeRow.Statement (.call nnn) :=
  ⟨⟨"CALL_addr", 0xF000, 0x2000⟩, by decide, rfl, matchesOpcodeRow_addr _ 0x2 nnn⟩
theorem MatchesOpcodeRow.seImm (x : Reg) (kk : Byte) :
    MatchesOpcodeRow.Statement (.seImm x kk) :=
  ⟨⟨"SE_Vx__byte", 0xF000, 0x3000⟩, by decide, rfl, matchesOpcodeRow_regImm _ 0x3 x kk⟩
theorem MatchesOpcodeRow.sneImm (x : Reg) (kk : Byte) :
    MatchesOpcodeRow.Statement (.sneImm x kk) :=
  ⟨⟨"SNE_Vx__byte", 0xF000, 0x4000⟩, by decide, rfl, matchesOpcodeRow_regImm _ 0x4 x kk⟩
theorem MatchesOpcodeRow.seReg (x y : Reg) (low : Nibble) :
    MatchesOpcodeRow.Statement (.seReg x y low) :=
  ⟨⟨"SE_Vx__Vy", 0xF000, 0x5000⟩, by decide, rfl, matchesOpcodeRow_regRegAny _ 0x5 x y low⟩
theorem MatchesOpcodeRow.ldImm (x : Reg) (kk : Byte) :
    MatchesOpcodeRow.Statement (.ldImm x kk) :=
  ⟨⟨"LD_Vx__byte", 0xF000, 0x6000⟩, by decide, rfl, matchesOpcodeRow_regImm _ 0x6 x kk⟩
theorem MatchesOpcodeRow.addImm (x : Reg) (kk : Byte) :
    MatchesOpcodeRow.Statement (.addImm x kk) :=
  ⟨⟨"ADD_Vx__byte", 0xF000, 0x7000⟩, by decide, rfl, matchesOpcodeRow_regImm _ 0x7 x kk⟩
theorem MatchesOpcodeRow.ldReg (x y : Reg) :
    MatchesOpcodeRow.Statement (.ldReg x y) :=
  ⟨⟨"LD_Vx__Vy", 0xF00F, 0x8000⟩, by decide, rfl, matchesOpcodeRow_regReg _ 0x8 x y 0x0⟩
theorem MatchesOpcodeRow.orReg (x y : Reg) :
    MatchesOpcodeRow.Statement (.orReg x y) :=
  ⟨⟨"OR_Vx__Vy", 0xF00F, 0x8001⟩, by decide, rfl, matchesOpcodeRow_regReg _ 0x8 x y 0x1⟩
theorem MatchesOpcodeRow.andReg (x y : Reg) :
    MatchesOpcodeRow.Statement (.andReg x y) :=
  ⟨⟨"AND_Vx__Vy", 0xF00F, 0x8002⟩, by decide, rfl, matchesOpcodeRow_regReg _ 0x8 x y 0x2⟩
theorem MatchesOpcodeRow.xorReg (x y : Reg) :
    MatchesOpcodeRow.Statement (.xorReg x y) :=
  ⟨⟨"XOR_Vx__Vy", 0xF00F, 0x8003⟩, by decide, rfl, matchesOpcodeRow_regReg _ 0x8 x y 0x3⟩
theorem MatchesOpcodeRow.addReg (x y : Reg) :
    MatchesOpcodeRow.Statement (.addReg x y) :=
  ⟨⟨"ADD_Vx__Vy", 0xF00F, 0x8004⟩, by decide, rfl, matchesOpcodeRow_regReg _ 0x8 x y 0x4⟩
theorem MatchesOpcodeRow.subReg (x y : Reg) :
    MatchesOpcodeRow.Statement (.subReg x y) :=
  ⟨⟨"SUB_Vx__Vy", 0xF00F, 0x8005⟩, by decide, rfl, matchesOpcodeRow_regReg _ 0x8 x y 0x5⟩
theorem MatchesOpcodeRow.shr (x y : Reg) :
    MatchesOpcodeRow.Statement (.shr x y) :=
  ⟨⟨"SHR_Vx____Vy", 0xF00F, 0x8006⟩, by decide, rfl, matchesOpcodeRow_regReg _ 0x8 x y 0x6⟩
theorem MatchesOpcodeRow.subnReg (x y : Reg) :
    MatchesOpcodeRow.Statement (.subnReg x y) :=
  ⟨⟨"SUBN_Vx__Vy", 0xF00F, 0x8007⟩, by decide, rfl, matchesOpcodeRow_regReg _ 0x8 x y 0x7⟩
theorem MatchesOpcodeRow.shl (x y : Reg) :
    MatchesOpcodeRow.Statement (.shl x y) :=
  ⟨⟨"SHL_Vx____Vy", 0xF00F, 0x800E⟩, by decide, rfl, matchesOpcodeRow_regReg _ 0x8 x y 0xE⟩
theorem MatchesOpcodeRow.sneReg (x y : Reg) (low : Nibble) :
    MatchesOpcodeRow.Statement (.sneReg x y low) :=
  ⟨⟨"SNE_Vx__Vy", 0xF000, 0x9000⟩, by decide, rfl, matchesOpcodeRow_regRegAny _ 0x9 x y low⟩
theorem MatchesOpcodeRow.ldI (nnn : Addr) :
    MatchesOpcodeRow.Statement (.ldI nnn) :=
  ⟨⟨"LD_I__addr", 0xF000, 0xA000⟩, by decide, rfl, matchesOpcodeRow_addr _ 0xA nnn⟩
theorem MatchesOpcodeRow.jpV0 (nnn : Addr) :
    MatchesOpcodeRow.Statement (.jpV0 nnn) :=
  ⟨⟨"JP_V0__addr", 0xF000, 0xB000⟩, by decide, rfl, matchesOpcodeRow_addr _ 0xB nnn⟩
theorem MatchesOpcodeRow.rnd (x : Reg) (kk : Byte) :
    MatchesOpcodeRow.Statement (.rnd x kk) :=
  ⟨⟨"RND_Vx__byte", 0xF000, 0xC000⟩, by decide, rfl, matchesOpcodeRow_regImm _ 0xC x kk⟩
theorem MatchesOpcodeRow.drw (x y : Reg) (n : Nat) :
    MatchesOpcodeRow.Statement (.drw x y n) :=
  ⟨⟨"DRW_Vx__Vy__nibble", 0xF000, 0xD000⟩, by decide, rfl, matchesOpcodeRow_regRegAny _ 0xD x y (BitVec.ofNat 4 n)⟩
theorem MatchesOpcodeRow.skp (x : Reg) :
    MatchesOpcodeRow.Statement (.skp x) :=
  ⟨⟨"SKP_Vx", 0xF0FF, 0xE09E⟩, by decide, rfl, matchesOpcodeRow_regOp _ 0xE x 0x9E⟩
theorem MatchesOpcodeRow.sknp (x : Reg) :
    MatchesOpcodeRow.Statement (.sknp x) :=
  ⟨⟨"SKNP_Vx", 0xF0FF, 0xE0A1⟩, by decide, rfl, matchesOpcodeRow_regOp _ 0xE x 0xA1⟩
theorem MatchesOpcodeRow.ldFromDt (x : Reg) :
    MatchesOpcodeRow.Statement (.ldFromDt x) :=
  ⟨⟨"LD_Vx__DT", 0xF0FF, 0xF007⟩, by decide, rfl, matchesOpcodeRow_regOp _ 0xF x 0x07⟩
theorem MatchesOpcodeRow.ldKey (x : Reg) :
    MatchesOpcodeRow.Statement (.ldKey x) :=
  ⟨⟨"LD_Vx__K", 0xF0FF, 0xF00A⟩, by decide, rfl, matchesOpcodeRow_regOp _ 0xF x 0x0A⟩
theorem MatchesOpcodeRow.ldDt (x : Reg) :
    MatchesOpcodeRow.Statement (.ldDt x) :=
  ⟨⟨"LD_DT__Vx", 0xF0FF, 0xF015⟩, by decide, rfl, matchesOpcodeRow_regOp _ 0xF x 0x15⟩
theorem MatchesOpcodeRow.ldSt (x : Reg) :
    MatchesOpcodeRow.Statement (.ldSt x) :=
  ⟨⟨"LD_ST__Vx", 0xF0FF, 0xF018⟩, by decide, rfl, matchesOpcodeRow_regOp _ 0xF x 0x18⟩
theorem MatchesOpcodeRow.addI (x : Reg) :
    MatchesOpcodeRow.Statement (.addI x) :=
  ⟨⟨"ADD_I__Vx", 0xF0FF, 0xF01E⟩, by decide, rfl, matchesOpcodeRow_regOp _ 0xF x 0x1E⟩
theorem MatchesOpcodeRow.ldFont (x : Reg) :
    MatchesOpcodeRow.Statement (.ldFont x) :=
  ⟨⟨"LD_F__Vx", 0xF0FF, 0xF029⟩, by decide, rfl, matchesOpcodeRow_regOp _ 0xF x 0x29⟩
theorem MatchesOpcodeRow.ldBcd (x : Reg) :
    MatchesOpcodeRow.Statement (.ldBcd x) :=
  ⟨⟨"LD_B__Vx", 0xF0FF, 0xF033⟩, by decide, rfl, matchesOpcodeRow_regOp _ 0xF x 0x33⟩
theorem MatchesOpcodeRow.stRegs (x : Reg) :
    MatchesOpcodeRow.Statement (.stRegs x) :=
  ⟨⟨"LD__I___Vx", 0xF0FF, 0xF055⟩, by decide, rfl, matchesOpcodeRow_regOp _ 0xF x 0x55⟩
theorem MatchesOpcodeRow.ldRegs (x : Reg) :
    MatchesOpcodeRow.Statement (.ldRegs x) :=
  ⟨⟨"LD_Vx___I", 0xF0FF, 0xF065⟩, by decide, rfl, matchesOpcodeRow_regOp _ 0xF x 0x65⟩

end Sys2Proof.Laws
end

