-- ==== Sys2Proof/Laws/Turns.lean ====
section
/-! SUPPORT. What a turn leaves unchanged, and that no turn depends on the schedule or on CYCLE_LATENCY. -/

namespace Sys2Proof.Machine

theorem UnchangedExcept.trans {w : Writes} {s t u : State} (h : UnchangedExcept w s t)
    (k : UnchangedExcept w t u) : UnchangedExcept w s u where
  regs r hr := (k.regs r hr).trans (h.regs r hr)
  bytes a ha := (k.bytes a ha).trans (h.bytes a ha)
  I hw := (k.I hw).trans (h.I hw)
  pc hw := (k.pc hw).trans (h.pc hw)
  S hw := (k.S hw).trans (h.S hw)
  DT hw := (k.DT hw).trans (h.DT hw)
  ST hw := (k.ST hw).trans (h.ST hw)
  disp hw := (k.disp hw).trans (h.disp hw)
  status hw := (k.status hw).trans (h.status hw)
  draws hw := (k.draws hw).trans (h.draws hw)
  keys := k.keys.trans h.keys
  cfg := k.cfg.trans h.cfg
  schedule := k.schedule.trans h.schedule

theorem advance_unchanged (s : State) (w : Writes) (h : w.pc = true) : UnchangedExcept w s s.advance := by
  constructor <;> intros <;> first | rfl | simp_all

theorem raise_unchanged (s : State) (e : Error) (a : Word) (word : Option Word) (w : Writes)
    (h : w.status = true) : UnchangedExcept w s (s.raise e a word) := by
  constructor <;> intros <;> first | rfl | simp_all

/-- A cycle changes what the due instruction may write, from the advanced state; with no instruction due, pc
and status at most. -/
theorem cycle_unchanged {s t : State} (h : cycle s = .next t) :
    (∃ i, s.dueInstr = some i ∧ UnchangedExcept (mayWrite s.advance i) s.advance t) ∨
    (s.dueInstr = none ∧ UnchangedExcept { pc := true, status := true } s t) := by
  obtain ⟨-, hc⟩ := cycle_cases h
  cases hc with
  | fetchFault e hf ht =>
    subst ht
    exact .inr ⟨by simp [State.dueInstr, hf], raise_unchanged _ _ _ _ _ rfl⟩
  | instr w i hf hd hx =>
    obtain ⟨v, hv, hu⟩ := exec_next_unchanged i s.advance
    rw [hv] at hx; cases hx
    exact .inl ⟨i, dueInstr_eq_some.mpr ⟨w, hf, hd⟩, hu⟩
  | unknownFatal w u hf hd hp ht =>
    subst ht
    exact .inr ⟨by simp [State.dueInstr, hf, hd],
      (advance_unchanged _ _ rfl).trans (raiseIn_unchanged _ _ _ _ rfl)⟩
  | unknownNop w u hf hd hp ht =>
    subst ht
    exact .inr ⟨by simp [State.dueInstr, hf, hd], advance_unchanged _ _ rfl⟩

/-! ### Independence of the schedule and of CYCLE_LATENCY -/

/-- The state with another CYCLE_LATENCY and another schedule. -/
def State.under (s : State) (l : CycleLatency) (ts : List Turn) : State :=
  { s with cfg := { s.cfg with cycleLatency := l }, schedule := ts }

variable (l : CycleLatency) (ts : List Turn)

theorem storeBytes_under (vs : List Byte) : ∀ (s : State) (a : Nat),
    (s.under l ts).storeBytes a vs = ((s.storeBytes a vs).1.under l ts, (s.storeBytes a vs).2) := by
  induction vs with
  | nil => intro s a; rfl
  | cons v vs ih =>
    intro s a
    by_cases ha : a ≤ topAddress
    · simp only [State.storeBytes, State.memWrite_ok ha]; exact ih (s.setByte a v) (a + 1)
    · simp only [State.storeBytes, State.memWrite_error ha]

theorem loadRegs_under (xs : List Reg) : ∀ (s : State) (a : Nat),
    (s.under l ts).loadRegs a xs = ((s.loadRegs a xs).1.under l ts, (s.loadRegs a xs).2) := by
  induction xs with
  | nil => intro s a; rfl
  | cons x xs ih =>
    intro s a
    by_cases ha : a ≤ topAddress
    · simp only [State.loadRegs, State.memRead_ok ha]; exact ih (s.setReg x (s.byte a)) (a + 1)
    · simp only [State.loadRegs, State.memRead_error ha]

theorem finish_under {i : Instr} {r : Accesses} {t : State} (h : finish i r = .next t) :
    finish i (r.1.under l ts, r.2) = .next (t.under l ts) := by
  obtain ⟨s, _ | e⟩ := r <;> cases h <;> rfl

/-- No instruction's effect depends on the schedule or on CYCLE_LATENCY. -/
theorem exec_under {i : Instr} {s t : State} (h : exec i s = .next t) :
    exec i (s.under l ts) = .next (t.under l ts) := by
  cases i with
  | ret =>
    simp only [exec, execRet, State.pop] at h ⊢
    simp only [State.under]
    cases hS : s.S.getLast? <;> rw [hS] at h <;> cases h <;> rfl
  | call nnn =>
    simp only [exec, execCall, State.push] at h ⊢
    simp only [State.under]
    by_cases hl : s.S.length < maxStackDepth <;> simp only [hl, if_true, if_false] at h ⊢ <;> cases h <;> rfl
  | drw x y n =>
    simp only [exec, execDrw, readBytes_spec] at h ⊢
    have : (s.under l ts).I = s.I := rfl
    rw [this]
    split at h <;> rename_i h2 <;> split at h2 <;> cases h2 <;> cases h
    · rename_i hc; rw [if_neg hc]; rfl
    · rename_i hc; rw [if_pos hc]; rfl
  | ldKey x =>
    simp only [exec, execLdKey] at h ⊢
    have : (s.under l ts).lowestKey = s.lowestKey := rfl
    rw [this]
    cases hk : s.lowestKey <;> rw [hk] at h <;> cases h <;> rfl
  | ldBcd x =>
    have e := storeBytes_under l ts (bcdDigits (s.reg x)) s s.I.toNat
    exact (congrArg (finish _) e).trans (finish_under l ts h)
  | stRegs x =>
    have e := storeBytes_under l ts ((regsUpTo x).map s.reg) s s.I.toNat
    exact (congrArg (finish _) e).trans (finish_under l ts h)
  | ldRegs x =>
    have e := loadRegs_under l ts (regsUpTo x) s s.I.toNat
    exact (congrArg (finish _) e).trans (finish_under l ts h)
  | seImm | sneImm | seReg | sneReg | skp | sknp =>
    have key : ∀ b, (s.under l ts).skipIf b = (s.skipIf b).under l ts := by intro b; cases b <;> rfl
    cases h
    exact congrArg Host.Outcome.next (key _)
  | _ => cases h; rfl

/-- What a turn answers does not depend on the schedule or on CYCLE_LATENCY, and no turn is refused. -/
theorem takeTurn_under (a : Turn) (s : State) :
    (∀ t, takeTurn a s = .next t → takeTurn a (s.under l ts) = .next (t.under l ts)) ∧
    (∀ f, takeTurn a s = .fault f → takeTurn a (s.under l ts) = .fault f) ∧
    ∀ r, takeTurn a s ≠ .refused r := by
  cases a with
  | host h => cases h <;> exact ⟨fun t h => (by cases h; rfl), fun f h => (by cases h), fun r h => (by cases h)⟩
  | cycle =>
    simp only [takeTurn_cycle]
    cases hs : s.status with
    | halted r =>
      have hs' : (s.under l ts).status = .halted r := hs
      rw [cycle_of_halted hs, cycle_of_halted hs']
      exact ⟨fun t h => (by cases h), fun f h => h, fun r h => (by cases h)⟩
    | running =>
      have hs' : (s.under l ts).status = .running := hs
      obtain ⟨u, hu⟩ := cycle_next_of_running hs
      rw [hu]
      refine ⟨fun t h => ?_, fun f h => (by cases h), fun r h => (by cases h)⟩
      cases h
      obtain ⟨-, hc⟩ := cycle_cases hu
      cases hc with
      | fetchFault e hf ht => subst ht; rw [cycle_of_fetch_error hs' hf]; rfl
      | instr w i hf hd hx => rw [cycle_of_instr hs' hf hd]; exact exec_under l ts hx
      | unknownFatal w v hf hd hp ht =>
        subst ht
        have hp' : (s.under l ts).advance.cfg.unknownPolicy = .fatal := hp
        have hf' : fetch (s.under l ts) = .ok w := hf
        simp only [cycle, hs', hf', execute, hd, executeUnknown, hp']; rfl
      | unknownNop w v hf hd hp ht =>
        subst ht
        have hp' : (s.under l ts).advance.cfg.unknownPolicy = .nop := hp
        have hf' : fetch (s.under l ts) = .ok w := hf
        simp only [cycle, hs', hf', execute, hd, executeUnknown, hp']; rfl

/-- No turn changes the parameters or the schedule. -/
theorem takeTurn_cfg_schedule {a : Turn} {s t : State} (h : takeTurn a s = .next t) :
    t.cfg = s.cfg ∧ t.schedule = s.schedule := by
  cases a with
  | host h' => cases h' <;> cases h <;> exact ⟨rfl, rfl⟩
  | cycle =>
    rcases cycle_unchanged h with ⟨i, -, hu⟩ | ⟨-, hu⟩
    · exact ⟨hu.cfg, hu.schedule⟩
    · exact ⟨hu.cfg, hu.schedule⟩

end Sys2Proof.Machine
end

