-- ==== Sys2Proof/Tests/Slice0.lean ====
section
/-! SUPPORT. Tests: expected values are the vectors V<n> of 95_test_vectors.md, or words written out from
30_encoding.md R102 and R112. Then the witnesses that the hypotheses of the statements can be met. -/

namespace Sys2Proof.Tests

open Sys2Proof.Machine

/-! ### Well-formedness: the one check refuses, at its boundary -/

theorem test_wellFormed_refuses_height_16 : (Instr.drw 0 0 16).wellFormed = false := by decide
theorem test_wellFormed_accepts_height_15 : (Instr.drw 0 0 15).wellFormed = true := by decide

/-! ### Decoding: every constructor, by a word written bit by bit -/

theorem test_decode_whole_words :
    decode 0b0000000011100000 = .instr .cls ∧ decode 0b0000000011101110 = .instr .ret := by decide
theorem test_decode_addr :
    decode 0b0001101010111100 = .instr (.jp 0xABC) ∧
    decode 0b0010001100000000 = .instr (.call 0x300) ∧
    decode 0b1010001011110000 = .instr (.ldI 0x2F0) ∧
    decode 0b1011001100000001 = .instr (.jpV0 0x301) := by decide
theorem test_decode_reg_imm :
    decode 0b0011001100000101 = .instr (.seImm 3 0x05) ∧
    decode 0b0100001100000110 = .instr (.sneImm 3 0x06) ∧
    decode 0b0110101001000010 = .instr (.ldImm 10 0x42) ∧
    decode 0b0111000111111111 = .instr (.addImm 1 0xFF) ∧
    decode 0b1100001100001111 = .instr (.rnd 3 0x0F) := by decide
theorem test_decode_reg_reg_any_low_nibble :
    decode 0b0101000100100001 = .instr (.seReg 1 2 0x1) ∧
    decode 0b1001000100101111 = .instr (.sneReg 1 2 0xF) := by decide
theorem test_decode_reg_reg :
    decode 0b1000000100100000 = .instr (.ldReg 1 2) ∧ decode 0b1000000100100001 = .instr (.orReg 1 2) ∧
    decode 0b1000000100100010 = .instr (.andReg 1 2) ∧ decode 0b1000000100100011 = .instr (.xorReg 1 2) ∧
    decode 0b1000000100100100 = .instr (.addReg 1 2) ∧ decode 0b1000000100100101 = .instr (.subReg 1 2) ∧
    decode 0b1000000100100110 = .instr (.shr 1 2) ∧ decode 0b1000000100100111 = .instr (.subnReg 1 2) ∧
    decode 0b1000000100101110 = .instr (.shl 1 2) := by decide
theorem test_decode_draw : decode 0b1101000100100101 = .instr (.drw 1 2 5) := by decide
theorem test_decode_reg_op :
    decode 0b1110000110011110 = .instr (.skp 1) ∧ decode 0b1110000110100001 = .instr (.sknp 1) ∧
    decode 0b1111101100000111 = .instr (.ldFromDt 11) ∧ decode 0b1111001100001010 = .instr (.ldKey 3) ∧
    decode 0b1111101000010101 = .instr (.ldDt 10) ∧ decode 0b1111001000011000 = .instr (.ldSt 2) ∧
    decode 0b1111001000011110 = .instr (.addI 2) ∧ decode 0b1111010000101001 = .instr (.ldFont 4) ∧
    decode 0b1111000000110011 = .instr (.ldBcd 0) ∧ decode 0b1111001101010101 = .instr (.stRegs 3) ∧
    decode 0b1111001001100101 = .instr (.ldRegs 2) := by decide
/-- The Unknown words of V1.5 to V1.11. -/
theorem test_decode_unknown :
    decode 0x0000 = .unknown 0x0000 ∧ decode 0x8008 = .unknown 0x8008 ∧ decode 0xE000 = .unknown 0xE000 ∧
    decode 0xF000 = .unknown 0xF000 ∧ decode 0x00FF = .unknown 0x00FF ∧ decode 0x0123 = .unknown 0x0123 := by
  decide
theorem test_decode_bytes_rejects_by_name :
    decodeBytes [0x60] = .error .truncated ∧ decodeBytes [0x80, 0x08] = .error (.unknown 0x8008) ∧
    decodeBytes [0x60, 0x01, 0x12] = .ok (.ldImm 0 0x01, [0x12]) := by decide
theorem test_decodeTableWord : decodeTableWord 16 0xD125 = some (.drw 1 2 5) ∧
    decodeTableWord 16 0x0000 = none := by decide

/-! ### One step on a small state -/

/-- The reset state with some registers set. -/
def withRegs (rs : List (Reg × Byte)) (s : State := State.reset) : State :=
  rs.foldl (fun t r => t.setReg r.1 r.2) s

/-- The reset state with bytes stored from an address on. -/
def withBytes (a : Nat) (vs : List Byte) (s : State := State.reset) : State := s.storeImage a vs

/-- The reset state with pixels on. -/
def withPixels (ps : List (Fin 64 × Fin 32)) (s : State := State.reset) : State :=
  { s with disp := ps.foldl (fun d p => Display.toggle d p.1 p.2) s.disp }

/-- The reset state under SHIFT_QUIRK = legacy. -/
def legacy : State := { State.reset with cfg := { resetConfig with shiftQuirk := .legacy } }

/-- Whether the word, stored at pc, runs to a next state of which `p` holds. -/
def runs (w : Nat) (s : State) (p : State → Bool) : Bool :=
  match step (s.withFetchWord 16 w) with
  | .next t => p t
  | .fault _ => false
  | .refused _ => false

/-- The status of a halt raised at 0x200. -/
def haltedAt200 (e : Error) (w : Word) : Status := .halted ⟨e, 0x200, some w⟩

/-- Exactly these pixels are on. -/
def onlyPixels (ps : List (Fin 64 × Fin 32)) (t : State) : Bool := t.disp == (withPixels ps).disp

/-- V1.1. -/
theorem test_fetch_at_ffe : runs 0x6001 { State.reset with pc := 0xFFE }
    (fun t => t.pc == 0x1000 && t.reg 0 == 0x01) = true := by decide
/-- V1.2: the fetch at 0xFFF fails at 0x1000 and leaves pc. -/
theorem test_fetch_at_fff : (match step { State.reset with pc := 0xFFF } with
    | .next t => t.pc == 0xFFF && t.status == .halted ⟨.outOfBoundsAddress 0x1000, 0xFFF, none⟩
    | _ => false) = true := by decide
/-- V1.4. -/
theorem test_fetch_odd_pc : runs 0x6507 { State.reset with pc := 0x201 }
    (fun t => t.pc == 0x203 && t.reg 5 == 0x07) = true := by decide
/-- V1.7. -/
theorem test_unknown_fatal : runs 0x8008 State.reset
    (fun t => t.pc == 0x202 && t.status == haltedAt200 (.unknownOpcode 0x8008) 0x8008) = true := by decide
/-- V1.11. -/
theorem test_unknown_nop :
    runs 0x0123 { State.reset with cfg := { resetConfig with unknownPolicy := .nop } }
      (fun t => t.pc == 0x202 && t.status == .running) = true := by decide

/-- V5.1. -/
theorem test_cls : runs 0x00E0 (withPixels [(0, 0), (63, 31)])
    (fun t => t.pc == 0x202 && onlyPixels [] t) = true := by decide
/-- V2.1. -/
theorem test_ret : runs 0x00EE { State.reset with S := [0x0206] }
    (fun t => t.pc == 0x206 && t.S == []) = true := by decide
/-- V2.2. -/
theorem test_ret_underflow : runs 0x00EE State.reset
    (fun t => t.pc == 0x202 && t.status == haltedAt200 .stackUnderflow 0x00EE) = true := by decide
/-- V2.4. -/
theorem test_jp : runs 0x1ABC State.reset (fun t => t.pc == 0xABC) = true := by decide
/-- V2.8. -/
theorem test_call : runs 0x2300 { State.reset with pc := 0x204 }
    (fun t => t.pc == 0x300 && t.S == [0x0206]) = true := by decide
/-- V2.9. -/
theorem test_call_overflow : runs 0x2300 { State.reset with S := List.replicate 16 0x202 }
    (fun t => t.S.length == 16 && t.status == haltedAt200 .stackOverflow 0x2300) = true := by decide
/-- V2.11 and V2.12. -/
theorem test_seImm : runs 0x3305 (withRegs [(3, 5)]) (fun t => t.pc == 0x204) = true ∧
    runs 0x3306 (withRegs [(3, 5)]) (fun t => t.pc == 0x202) = true := by decide
/-- V2.13 and V2.14. -/
theorem test_sneImm : runs 0x4306 (withRegs [(3, 5)]) (fun t => t.pc == 0x204) = true ∧
    runs 0x4305 (withRegs [(3, 5)]) (fun t => t.pc == 0x202) = true := by decide
/-- V2.16 and V2.17. -/
theorem test_seReg :
    runs 0x5121 (withRegs [(1, 0x7F), (2, 0x7F)]) (fun t => t.pc == 0x204) = true ∧
    runs 0x5120 (withRegs [(1, 0x7F), (2, 0x7E)]) (fun t => t.pc == 0x202) = true := by decide
/-- V2.19 and V2.20. -/
theorem test_sneReg : runs 0x9120 (withRegs [(1, 1), (2, 2)]) (fun t => t.pc == 0x204) = true ∧
    runs 0x9110 (withRegs [(1, 1)]) (fun t => t.pc == 0x202) = true := by decide
/-- V2.23: no mask. -/
theorem test_jpV0 : runs 0xBFFF (withRegs [(0, 0xFF)]) (fun t => t.pc == 0x10FE) = true := by decide

/-- V3.2. -/
theorem test_ldImm : runs 0x6F07 (withRegs [(15, 1)]) (fun t => t.reg VF == 0x07) = true := by decide
/-- V3.3. -/
theorem test_addImm : runs 0x7101 (withRegs [(1, 0xFF), (15, 0x55)])
    (fun t => t.reg 1 == 0x00 && t.reg VF == 0x55) = true := by decide
/-- V3.6. -/
theorem test_ldReg : runs 0x8120 (withRegs [(2, 0x33)])
    (fun t => t.reg 1 == 0x33 && t.reg 2 == 0x33) = true := by decide
/-- V3.7. -/
theorem test_orReg : runs 0x8121 (withRegs [(1, 0x0F), (2, 0xF0), (15, 0x55)])
    (fun t => t.reg 1 == 0xFF && t.reg VF == 0x55) = true := by decide
/-- V3.8. -/
theorem test_andReg : runs 0x8122 (withRegs [(1, 0x3C), (2, 0x0F), (15, 0x55)])
    (fun t => t.reg 1 == 0x0C && t.reg VF == 0x55) = true := by decide
/-- V3.9. -/
theorem test_xorReg : runs 0x8123 (withRegs [(1, 0x3C), (2, 0x0F), (15, 0x55)])
    (fun t => t.reg 1 == 0x33 && t.reg VF == 0x55) = true := by decide
/-- V3.13. -/
theorem test_addReg : runs 0x8124 (withRegs [(1, 0xFF), (2, 0xFF)])
    (fun t => t.reg 1 == 0xFE && t.reg VF == 1) = true := by decide
/-- V3.15: the flag wins. -/
theorem test_addReg_into_VF : runs 0x8F24 (withRegs [(15, 0xFF), (2, 0x01)])
    (fun t => t.reg VF == 1) = true := by decide
/-- V3.18. -/
theorem test_subReg : runs 0x8125 (withRegs [(1, 3), (2, 5)])
    (fun t => t.reg 1 == 0xFE && t.reg VF == 0) = true := by decide
/-- V3.19: equal operands do not borrow. -/
theorem test_subReg_equal : runs 0x8125 (withRegs [(1, 0x42), (2, 0x42)])
    (fun t => t.reg 1 == 0x00 && t.reg VF == 1) = true := by decide
/-- V3.25 (modern). -/
theorem test_shr : runs 0x8126 (withRegs [(1, 5), (2, 8)])
    (fun t => t.reg 1 == 0x02 && t.reg VF == 1) = true := by decide
/-- V3.28 (legacy, Y = F). -/
theorem test_shr_legacy : runs 0x81F6 (withRegs [(1, 0), (15, 3)] legacy)
    (fun t => t.reg 1 == 0x01 && t.reg VF == 1) = true := by decide
/-- V3.22. -/
theorem test_subnReg : runs 0x8127 (withRegs [(1, 3), (2, 5)])
    (fun t => t.reg 1 == 0x02 && t.reg VF == 1) = true := by decide
/-- V3.31 (modern). -/
theorem test_shl : runs 0x812E (withRegs [(1, 0x81), (2, 0x40)])
    (fun t => t.reg 1 == 0x02 && t.reg VF == 1) = true := by decide
/-- V3.32 (legacy). -/
theorem test_shl_legacy : runs 0x812E (withRegs [(1, 0x81), (2, 0x40)] legacy)
    (fun t => t.reg 1 == 0x80 && t.reg VF == 0) = true := by decide
/-- V3.37: whatever the draw, the mask 0 gives 0. -/
theorem test_rnd_mask_zero : ∃ t, exec (.rnd 3 0x00) (withRegs [(3, 0x77)]) = .next t ∧
    t.reg 3 = 0x00 ∧ t.draws = 1 :=
  ⟨_, rfl, BitVec.and_zero, rfl⟩

/-- V4.1. -/
theorem test_ldI : runs 0xA2F0 State.reset (fun t => t.I == 0x2F0) = true := by decide
/-- V4.4. -/
theorem test_addI : runs 0xF21E (withRegs [(2, 1)] { State.reset with I := 0xFFFF })
    (fun t => t.I == 0x0000 && t.reg VF == 0) = true := by decide
/-- V4.7 (FONT_BASE = 0x050). -/
theorem test_ldFont :
    runs 0xF429 (withRegs [(4, 0x0A)] { State.reset with cfg := { resetConfig with fontBase := 0x050 } })
      (fun t => t.I == 0x082) = true := by decide
/-- V4.8. -/
theorem test_ldBcd : runs 0xF033 (withRegs [(0, 0xFE)] { State.reset with I := 0x300 })
    (fun t => t.byte 0x300 == 2 && t.byte 0x301 == 5 && t.byte 0x302 == 4) = true := by decide
/-- V4.11: the stores before the raise stay. -/
theorem test_ldBcd_halts : runs 0xF033 (withRegs [(0, 0xFF)] { State.reset with I := 0xFFE })
    (fun t => t.byte 0xFFF == 5 && t.status == haltedAt200 (.outOfBoundsAddress 0x1000) 0xF033) = true := by
  decide
/-- V4.13: I is unchanged. -/
theorem test_stRegs : runs 0xF255 (withRegs [(0, 0x11), (1, 0x22), (2, 0x33)] { State.reset with I := 0x400 })
    (fun t => t.byte 0x400 == 0x11 && t.byte 0x402 == 0x33 && t.I == 0x400) = true := by decide
/-- V4.15. -/
theorem test_stRegs_halts : runs 0xF355 (withRegs [(0, 0x11), (1, 0x22)] { State.reset with I := 0xFFE })
    (fun t => t.byte 0xFFF == 0x22 && t.status == haltedAt200 (.outOfBoundsAddress 0x1000) 0xF355) = true := by
  decide
/-- V4.16. -/
theorem test_ldRegs : runs 0xF265 (withBytes 0x300 [2, 5, 4] { State.reset with I := 0x300 })
    (fun t => t.reg 0 == 2 && t.reg 2 == 4 && t.I == 0x300) = true := by decide
/-- V4.18. -/
theorem test_ldRegs_halts : runs 0xF165 (withBytes 0xFFF [0xAB] { State.reset with I := 0xFFF })
    (fun t => t.reg 0 == 0xAB && t.status == haltedAt200 (.outOfBoundsAddress 0x1000) 0xF165) = true := by
  decide

/-- V5.5: columns wrap. -/
theorem test_drw_wraps : runs 0xD121 (withRegs [(1, 0x3E)])
    (fun t => t.reg VF == 0 && onlyPixels [(62, 0), (63, 0), (0, 0), (1, 0)] t) = true := by decide
/-- V5.3. -/
theorem test_drw_collides : runs 0xD121 (withPixels [(3, 0)])
    (fun t => t.reg VF == 1 && onlyPixels [(0, 0), (1, 0), (2, 0)] t) = true := by decide

/-- V6.3: the low four bits name the key. -/
theorem test_skp : runs 0xE19E (withRegs [(1, 0x15)] { State.reset with keys := 0x0020 })
    (fun t => t.pc == 0x204) = true := by decide
/-- V6.4 and V6.5. -/
theorem test_sknp : runs 0xE1A1 (withRegs [(1, 0x0A)]) (fun t => t.pc == 0x204) = true ∧
    runs 0xE1A1 (withRegs [(1, 0x0A)] { State.reset with keys := 0x0400 }) (fun t => t.pc == 0x202) = true := by
  decide
/-- V6.6. -/
theorem test_ldKey_waits : runs 0xF30A { State.reset with pc := 0x20A } (fun t => t.pc == 0x20A) = true := by
  decide
/-- V6.8. -/
theorem test_ldKey : runs 0xF30A { State.reset with pc := 0x20A, keys := 0x1210 }
    (fun t => t.pc == 0x20C && t.reg 3 == 0x04) = true := by decide
/-- V6.10. -/
theorem test_ldFromDt : runs 0xFB07 { State.reset with DT := 0x3C } (fun t => t.reg 11 == 0x3C) = true := by
  decide
/-- V6.11. -/
theorem test_ldDt : runs 0xFA15 (withRegs [(10, 0x3C)]) (fun t => t.DT == 0x3C && t.ST == 0) = true := by
  decide
/-- V6.12. -/
theorem test_ldSt : runs 0xF218 (withRegs [(2, 5)]) (fun t => t.ST == 0x05 && t.DT == 0) = true := by decide

/-- V7.1 and V7.3. -/
theorem test_tick : (hostStep .tick { State.reset with DT := 5, ST := 2 }).DT = 4 ∧
    (hostStep .tick { State.reset with DT := 5, ST := 2 }).ST = 1 ∧
    (hostStep .tick State.reset).DT = 0 := by decide
/-- V7.5. -/
theorem test_keyUpdate : (hostStep (.keyUpdate 0x0081) State.reset).keyPressed 7 = true ∧
    (hostStep (.keyUpdate 0x0081) State.reset).keyPressed 1 = false := by decide
/-- V7.6. -/
theorem test_audioPoll : ({ State.reset with ST := 5 } : State).audioValue = 5 ∧
    ({ State.reset with ST := 5 } : State).toneOn = true := by decide
/-- V8.5, and V8.1's zeros beside the font. -/
theorem test_reset_font : State.reset.byte 0 = 0xF0 ∧ State.reset.byte 1 = 0x90 ∧
    State.reset.byte 75 = 0xF0 ∧ State.reset.byte 79 = 0x80 ∧ State.reset.byte 80 = 0 := by decide
/-- V8.2. -/
theorem test_font_base : (State.resetWith { resetConfig with fontBase := 0x050 }).byte 0x050 = 0xF0 ∧
    (State.resetWith { resetConfig with fontBase := 0x050 }).byte 0x04F = 0 := by decide

/-! ### Witnesses: for each statement with hypotheses, a state and operands that meet them together -/

/-- A running state meets the invariant when its parts do. -/
theorem inv_of_running {s : State} (hs : s.status = .running) (hm : s.MemWf)
    (h : s.cfg.wf ∧ s.S.length ≤ 16 ∧ (∀ a ∈ s.S, a.toNat ≤ 0x1000) ∧ s.pc.toNat ≤ 0x10FE) : s.Inv where
  params := h.1
  memory := hm
  depth := h.2.1
  entries := h.2.2.1
  pcBound := h.2.2.2
  record r hr := by rw [hs] at hr; cases hr

/-- A state of the invariant with a stored byte, two stack entries and I at the given address. -/
def sample (i : Word) : State :=
  { withBytes 0xFFF [0xAB] (withRegs [(0, 0xFE), (1, 0x22), (15, 0x7F)]) with
    I := i, S := [0x0206, 0x1000], pc := 0x0202 }

theorem sample_inv (i : Word) : (sample i).Inv :=
  inv_of_running rfl (by decide : (sample 0).MemWf)
    ⟨(by decide : resetConfig.wf), by simp [sample], by simp [sample], by simp [sample]⟩

/-- A state that waits in FX0A at 0x200, with both timers running. -/
def waiting : State := withBytes 0x200 [0xF3, 0x0A] { State.reset with DT := 2, ST := 1 }

theorem waiting_blocked : waiting.Blocked := ⟨rfl, ⟨3, by decide⟩, rfl⟩

theorem witness_DecodeOfEncodeIsIdentity :
    (Instr.drw 15 15 15).wellFormed = true ∧ (Instr.drw 0 0 0).wellFormed = true := by decide
theorem witness_DecodedWordsReencode : decode 0x5FEF = .instr (.seReg 15 14 0xF) := by decide
theorem witness_DecodeFollowsOpcodeTable :
    (∃ r ∈ opcodeRows, r.matchesWord 0x8126 = true) ∧ ∀ r ∈ opcodeRows, r.matchesWord 0x800F = false := by
  decide
theorem witness_FetchReadsTwoBytesOrHalts :
    ({ State.reset with pc := 0xFFE } : State).pc.toNat ≤ 0xFFE ∧
    ({ State.reset with pc := 0xFFF } : State).pc.toNat > 0xFFE ∧
    ({ State.reset with pc := 0xFFF } : State).status = .running := by decide
theorem witness_StepRunsDecodedInstruction :
    (State.withFetchWord { State.reset with pc := 0xFFE } 16 0x6001).status = .running ∧
    (State.withFetchWord { State.reset with pc := 0xFFE } 16 0x6001).pc.toNat ≤ 0xFFE ∧
    decode ((State.withFetchWord { State.reset with pc := 0xFFE } 16 0x6001).byte 0xFFE ++
      (State.withFetchWord { State.reset with pc := 0xFFE } 16 0x6001).byte 0xFFF) =
      .instr (.ldImm 0 0x01) ∧
    (State.withFetchWord { State.reset with pc := 0xFFE } 16 0x6001).schedule = [] := by decide
theorem witness_StepRunsDecodedInstruction_scheduled :
    ({ waiting with schedule := [.cycle, .host .tick] } : State).status = .running ∧
    ({ waiting with schedule := [.cycle, .host .tick] } : State).pc.toNat ≤ 0xFFE ∧
    decode (({ waiting with schedule := [.cycle, .host .tick] } : State).byte 0x200 ++
      ({ waiting with schedule := [.cycle, .host .tick] } : State).byte 0x201) = .instr (.ldKey 3) ∧
    ({ waiting with schedule := [.cycle, .host .tick] } : State).schedule = .cycle :: [.host .tick] := by
  decide
theorem witness_UnknownWordHaltsWhenFatal : State.reset.status = .running ∧
    fetch State.reset = .ok 0x0000 ∧ decode 0x0000 = .unknown 0x0000 ∧
    State.reset.cfg.unknownPolicy = .fatal := by decide
theorem witness_UnknownWordIsSkippedWhenNop :
    (State.resetWith { resetConfig with unknownPolicy := .nop }).status = .running ∧
    fetch (State.resetWith { resetConfig with unknownPolicy := .nop }) = .ok 0x0000 ∧
    decode 0x0000 = .unknown 0x0000 ∧
    (State.resetWith { resetConfig with unknownPolicy := .nop }).cfg.unknownPolicy = .nop := by decide
/-- Both ends: a cycle that ends running and one that halts. -/
theorem witness_CycleEndsRunningOrHalted : waiting.status = .running ∧ State.reset.status = .running ∧
    (∃ t, cycle waiting = .next t ∧ t.status = .running) ∧
    ∃ t, cycle State.reset = .next t ∧ t.status ≠ .running :=
  ⟨rfl, rfl, ⟨_, rfl, rfl⟩, ⟨_, rfl, by decide⟩⟩
theorem witness_HaltedEngineStaysHalted :
    ({ State.reset with status := haltedAt200 .stackUnderflow 0x00EE } : State).status =
      .halted ⟨.stackUnderflow, 0x200, some 0x00EE⟩ := rfl
/-- The three kinds of halt: CALL, RET and a memory access. -/
theorem witness_ErrorKindsPerInstruction :
    (∃ t r, exec (.call 0x300) { State.reset with S := List.replicate 16 0x202 } = .next t ∧
      t.status = .halted r) ∧
    (∃ t r, exec .ret State.reset = .next t ∧ t.status = .halted r) ∧
    ∃ t r, exec (.ldRegs 0) { State.reset with I := 0x1000 } = .next t ∧ t.status = .halted r :=
  ⟨⟨_, _, rfl, rfl⟩, ⟨_, _, rfl, rfl⟩, ⟨_, _, rfl, rfl⟩⟩
theorem witness_StepKeepsInv : (sample 0x300).Inv ∧ ∃ t, step (sample 0x300) = .next t :=
  ⟨sample_inv 0x300, _, rfl⟩
/-- FONT_BASE at the top of its range. -/
theorem witness_InitMeetsInv : ({ resetConfig with fontBase := 0x1B0 } : Config).wf ∧
    ∃ s, State.init { resetConfig with fontBase := 0x1B0 } [0x12, 0x00] = .ok s :=
  ⟨by decide, _, rfl⟩
theorem witness_StepKeepsParameters : ∃ t, step (sample 0x300) = .next t := ⟨_, rfl⟩
theorem witness_CycleLatencyHasNoEffect : (∃ t, step State.reset = .next t) ∧
    ∃ f, step { State.reset with status := haltedAt200 .stackUnderflow 0x00EE } = .fault f :=
  ⟨⟨_, rfl⟩, ⟨_, rfl⟩⟩
theorem witness_ScheduleOrdersTurns : State.reset.schedule = [] := rfl
/-- A tick that changes both timers, FX15 and FX18 as due instructions, and a cycle of neither. -/
theorem witness_OnlySetAndTickChangeTimers :
    (∃ t, takeTurn (.host .tick) waiting = .next t ∧ t.DT ≠ waiting.DT ∧ t.ST ≠ waiting.ST) ∧
    (∃ t, takeTurn .cycle (withBytes 0x200 [0xF0, 0x15] { State.reset with DT := 1 }) = .next t ∧
      t.DT ≠ 1) ∧
    (∃ t, takeTurn .cycle (withBytes 0x200 [0xF0, 0x18] { State.reset with ST := 1 }) = .next t ∧
      t.ST ≠ 1) ∧
    (∃ t, takeTurn .cycle waiting = .next t) ∧ waiting.dueInstr = some (.ldKey 3) :=
  ⟨⟨_, rfl, by decide, by decide⟩, ⟨_, rfl, by decide⟩, ⟨_, rfl, by decide⟩, ⟨_, rfl⟩, by decide⟩
theorem witness_OnlyKeyUpdateChangesKeys :
    ∃ t, takeTurn (.host (.keyUpdate 1)) State.reset = .next t ∧ t.keys ≠ State.reset.keys :=
  ⟨_, rfl, by decide⟩
theorem witness_OnlyTheseInstructionsWrite_bytes :
    (∃ t, exec (.ldBcd 0) (sample 0x300) = .next t ∧ t.byte 0x302 ≠ (sample 0x300).byte 0x302) ∧
    ∃ t, exec (.stRegs 1) (sample 0x300) = .next t ∧ t.byte 0x301 ≠ (sample 0x300).byte 0x301 :=
  ⟨⟨_, rfl, by decide⟩, ⟨_, rfl, by decide⟩⟩
theorem witness_OnlyTheseInstructionsWrite :
    (∃ t, exec (.drw 2 2 1) (sample 0x000) = .next t ∧ t.disp ≠ (sample 0x000).disp) ∧
    (∃ t, exec .ret (sample 0x000) = .next t ∧ t.S ≠ (sample 0x000).S) ∧
    (∃ t, exec (.ldI 0x300) (sample 0x000) = .next t ∧ t.I ≠ (sample 0x000).I) ∧
    ∃ t, exec (.rnd 0 0xFF) (sample 0x000) = .next t ∧ t.draws ≠ (sample 0x000).draws :=
  ⟨⟨_, rfl, by decide⟩, ⟨_, rfl, by decide⟩, ⟨_, rfl, by decide⟩, ⟨_, rfl, by decide⟩⟩
theorem witness_OnlyFlagWritersChangeVF :
    ∃ t, exec (.addReg 0 1) (sample 0x300) = .next t ∧ t.reg VF ≠ (sample 0x300).reg VF :=
  ⟨_, rfl, by decide⟩
theorem witness_MemoryReadAfterWrite : (sample 0).Inv ∧ 0x000 ≤ 0xFFF ∧ 0xFFF ≤ 0xFFF :=
  ⟨sample_inv 0, by decide⟩
theorem witness_StackPushAndPop :
    ({ State.reset with S := List.replicate 16 0x202 } : State).S.length = 16 ∧
    ({ State.reset with S := List.replicate 15 0x202 } : State).S.length < 16 ∧
    State.reset.S = [] ∧ (sample 0).S = [0x0206] ++ [0x1000] := by decide
/-- A return to 0x1000, and an empty stack. -/
theorem witness_ReturnPopsIntoPc : (sample 0).S = [0x0206] ++ [0x1000] ∧ State.reset.S = [] := by decide
theorem witness_CallPushesReturnAddress :
    ({ State.reset with S := List.replicate 15 0x202 } : State).S.length < 16 ∧
    ({ State.reset with S := List.replicate 16 0x202 } : State).S.length = 16 := by decide
theorem witness_ShiftsFollowQuirk :
    legacy.cfg.shiftQuirk = .legacy ∧ (withRegs [(15, 3)] legacy).reg 15 = 3 ∧
    State.reset.cfg.shiftQuirk = .modern := by decide
theorem witness_IndexLoads : ({ resetConfig with fontBase := 0x1B0 } : Config).wf := by decide
theorem witness_DecimalStoreCompletes : (sample 0xFFD).Inv ∧ (sample 0xFFD).I.toNat + 2 ≤ 0xFFF :=
  ⟨sample_inv _, by decide⟩
/-- Two, one and no digit stored. -/
theorem witness_DecimalStoreHaltsPartWay :
    ((sample 0xFFE).Inv ∧ (sample 0xFFE).I.toNat + 2 > 0xFFF ∧ (sample 0xFFE).I.toNat + 1 ≤ 0xFFF) ∧
    ((sample 0xFFF).Inv ∧ (sample 0xFFF).I.toNat + 2 > 0xFFF ∧ (sample 0xFFF).I.toNat ≤ 0xFFF) ∧
    (sample 0xFFFF).Inv ∧ (sample 0xFFFF).I.toNat + 2 > 0xFFF :=
  ⟨⟨sample_inv _, by decide⟩, ⟨sample_inv _, by decide⟩, sample_inv _, by decide⟩
theorem witness_RegisterStoreCompletes : (sample 0xFF0).Inv ∧ (sample 0xFF0).I.toNat + 15 ≤ 0xFFF :=
  ⟨sample_inv _, by decide⟩
theorem witness_RegisterStoreHaltsPartWay :
    ((sample 0xFF1).Inv ∧ (sample 0xFF1).I.toNat + 15 > 0xFFF) ∧
    (sample 0x1000).Inv ∧ (sample 0x1000).I.toNat + 0 > 0xFFF :=
  ⟨⟨sample_inv _, by decide⟩, sample_inv _, by decide⟩
theorem witness_RegisterLoadCompletes : (sample 0xFF0).I.toNat + 15 ≤ 0xFFF := by decide
theorem witness_RegisterLoadHaltsPartWay :
    (sample 0xFF1).I.toNat + 15 > 0xFFF ∧ (sample 0xFFFF).I.toNat + 0 > 0xFFF := by decide
theorem witness_StoreIsSeenByNextFetch : (sample 0xFFE).Inv ∧ (sample 0xFFE).I.toNat + 1 ≤ 0xFFF ∧
    (1 : Reg).val = (0 : Reg).val + 1 ∧ (1 : Reg) ≤ 1 ∧ ∃ t, exec (.stRegs 1) (sample 0xFFE) = .next t :=
  ⟨sample_inv _, by decide, by decide, by decide, _, rfl⟩
/-- N = 0 far outside memory, and 15 rows that end at 0xFFF. -/
theorem witness_DrawTogglesCoveredPixels :
    (0 ≤ 15 ∧ (0 = 0 ∨ (sample 0xFFFF).I.toNat + 0 ≤ 0x1000) ∧
      [] = (List.range' (sample 0xFFFF).I.toNat 0).map (sample 0xFFFF).byte) ∧
    15 ≤ 15 ∧ (15 = 0 ∨ (sample 0xFF1).I.toNat + 15 ≤ 0x1000) ∧
      List.replicate 14 0x00 ++ [0xAB] = (List.range' (sample 0xFF1).I.toNat 15).map (sample 0xFF1).byte := by
  decide
theorem witness_DrawHaltsBeforePlotting :
    0 < 15 ∧ 15 ≤ 15 ∧ (sample 0xFF2).I.toNat + 15 > 0x1000 ∧ (sample 0xFFFF).I.toNat + 1 > 0x1000 := by
  decide
theorem witness_PlotTwiceRestoresDisplay : (List.replicate 15 (0xFF : Byte)).length ≤ 15 := by decide
/-- Key 15 alone, and no key. -/
theorem witness_WaitForKey :
    (({ State.reset with keys := 0x8000 } : State).keyPressed 15 = true ∧
      ∀ j : Fin 16, j < 15 → ({ State.reset with keys := 0x8000 } : State).keyPressed j = false) ∧
    ∀ k, State.reset.keyPressed k = false := by decide
theorem witness_TimersCountTicksNotCycles :
    (∃ t, runTurns [.cycle, .host .tick] waiting = .next t) ∧
    RunAvoids (fun i => ∃ x, i = .ldDt x) [.cycle, .host .tick] waiting ∧
    RunAvoids (fun i => ∃ x, i = .ldSt x) [.cycle, .host .tick] waiting := by
  have h : waiting.dueInstr = some (.ldKey 3) := by decide
  refine ⟨⟨_, rfl⟩, ⟨fun _ i hi => ?_, fun u _ => ⟨fun h => (by cases h), fun _ _ => trivial⟩⟩,
    fun _ i hi => ?_, fun u _ => ⟨fun h => (by cases h), fun _ _ => trivial⟩⟩ <;>
    rw [h] at hi <;> cases hi <;> rintro ⟨x, hx⟩ <;> cases hx
theorem witness_BlockedEngineStillTicks :
    waiting.Blocked ∧ KeysStayReleased [.cycle, .host .tick, .host (.keyUpdate 0), .host .snapshot] :=
  ⟨waiting_blocked, fun k hk => by simpa using hk⟩

/-- Ticks and cycles in turn. -/
def alternating (n : Nat) : Turn := if n % 2 = 0 then .host .tick else .cycle

theorem alternating_fair (s : State) : WeaklyFair alternating s := by
  refine ⟨fun n => ⟨2 * n, by omega, ?_⟩, fun n _ => ⟨2 * n + 1, by omega, ?_⟩⟩ <;> simp [alternating]

theorem alternating_no_keyUpdate (n : Nat) (k : BitVec 16) : alternating n ≠ .host (.keyUpdate k) := by
  unfold alternating
  split <;> simp

/-- The first clause: a waiting engine, no key ever pressed. -/
theorem witness_FairScheduleProgress :
    WeaklyFair alternating waiting ∧ waiting.Blocked ∧
    ∀ n, KeysStayReleased (turnsOf alternating n) := by
  refine ⟨alternating_fair _, waiting_blocked, fun n k hk => ?_⟩
  obtain ⟨m, -, hm⟩ := List.mem_map.mp hk
  exact absurd hm (alternating_no_keyUpdate m k)

/-- The state of V7.4: halted, with the delay timer running. -/
def halted : State := { State.reset with DT := 3, status := haltedAt200 .stackUnderflow 0x00EE }

theorem halted_ticks (n : Nat) (s : State) :
    ∃ t, runTurns (List.replicate n (.host .tick)) s = .next t ∧ t.status = s.status := by
  induction n generalizing s with
  | zero => exact ⟨s, rfl, rfl⟩
  | succ n ih => exact ih (hostStep .tick s)

/-- The second clause: a halted engine that only ticks is a fair run (60_exceptions.md R357, R359). -/
theorem witness_FairScheduleProgress_halted :
    WeaklyFair (fun _ => .host .tick) halted ∧
    halted.status = .halted ⟨.stackUnderflow, 0x200, some 0x00EE⟩ ∧ IsRun (fun _ => .host .tick) halted := by
  have run : ∀ n, ∃ t, runTurns (turnsOf (fun _ => .host .tick) n) halted = .next t ∧
      t.status = halted.status := fun n => by
    simpa [turnsOf, List.map_const'] using halted_ticks n halted
  refine ⟨⟨fun n => ⟨n, Nat.le_refl n, rfl⟩, fun n h => ?_⟩, rfl, fun n => ?_⟩
  · obtain ⟨t, ht, hr⟩ := h n (Nat.le_refl n)
    obtain ⟨u, hu, hs⟩ := run n
    rw [hu] at ht; cases ht
    rw [hs] at hr; cases hr
  · obtain ⟨t, ht, -⟩ := run n; exact ⟨t, ht⟩

/-- The third clause: FX0A with key 15 held. -/
theorem witness_FairScheduleProgress_key :
    WeaklyFair alternating { waiting with keys := 0x8000 } ∧
    ({ waiting with keys := 0x8000 } : State).status = .running ∧
    ({ waiting with keys := 0x8000 } : State).dueInstr = some (.ldKey 3) ∧
    ({ waiting with keys := 0x8000 } : State).keys ≠ 0 ∧
    ∀ n k, alternating n = .host (.keyUpdate k) → k ≠ 0 :=
  ⟨alternating_fair _, rfl, by decide, by decide, fun n k h => absurd h (alternating_no_keyUpdate n k)⟩
theorem witness_ProgramLoadLimit : (List.replicate 3584 (0 : Byte)).length ≤ 3584 ∧
    (List.replicate 3585 (0 : Byte)).length > 3584 :=
  ⟨Nat.le_of_eq List.length_replicate, Nat.lt_of_lt_of_eq (by decide) List.length_replicate.symm⟩
theorem witness_InitSetsEveryComponent : resetConfig.wf ∧ ∃ s, State.init resetConfig [0x12, 0x00] = .ok s :=
  ⟨by decide, _, rfl⟩

end Sys2Proof.Tests
end

/-! The parameter CYCLE_LATENCY has no effect on a step (00_scope.md R11). -/

namespace Sys2Proof.Machine

/-- The turn due, and the state it is taken from but for that parameter, are the same under another
CYCLE_LATENCY. -/
theorem nextTurn_under_latency (l : CycleLatency) (s : State) :
    (s.under l s.schedule).nextTurn =
      (s.nextTurn.1, s.nextTurn.2.under l s.nextTurn.2.schedule) := by
  cases hs : s.schedule with
  | nil => simp [State.nextTurn, State.under, hs]
  | cons a ts => simp [State.nextTurn, State.under, hs]

theorem step_under_latency (l : CycleLatency) (s : State) :
    step (s.under l s.schedule) =
      takeTurn s.nextTurn.1 (s.nextTurn.2.under l s.nextTurn.2.schedule) := by
  rw [step, nextTurn_under_latency]

/-- Settles O18: a turn commutes with a change of CYCLE_LATENCY, and it leaves the schedule that `step` has
taken it off as it is. -/
theorem cycleLatencyHasNoEffect : Obligations.CycleLatencyHasNoEffect := by
  intro s l
  obtain ⟨next_under, fault_under, -⟩ :=
    takeTurn_under l s.nextTurn.2.schedule s.nextTurn.1 s.nextTurn.2
  refine ⟨fun t h => ?_, fun f h => ?_⟩
  · have hsched : t.schedule = s.nextTurn.2.schedule := (takeTurn_cfg_schedule h).2
    calc step (s.under l s.schedule)
      _ = takeTurn s.nextTurn.1 (s.nextTurn.2.under l s.nextTurn.2.schedule) := step_under_latency l s
      _ = .next (t.under l s.nextTurn.2.schedule) := next_under t h
      _ = .next (t.under l t.schedule) := by rw [hsched]
  · exact (step_under_latency l s).trans (fault_under f h)

end Sys2Proof.Machine

/-! The state's invariants and what may change a component of it (10_state.md): the stack operations, the
invariant of every step, and what changes the timers, the keys and VF. -/

namespace Sys2Proof.Machine

/-! ### The stack operations (R40) -/

theorem State.push_of_lt {s : State} (h : s.S.length < 16) (a : Word) :
    s.push a = .ok { s with S := s.S ++ [a] } :=
  if_pos h

theorem State.push_of_not_lt {s : State} (h : ¬ s.S.length < 16) (a : Word) :
    s.push a = .error .stackOverflow :=
  if_neg h

theorem State.pop_of_nil {s : State} (h : s.S = []) : s.pop = .error .stackUnderflow := by
  simp [State.pop, h]

theorem State.pop_of_concat {s : State} {l : List Word} {a : Word} (h : s.S = l ++ [a]) :
    s.pop = .ok (a, { s with S := l }) := by
  simp [State.pop, h]

theorem setStack_unchanged (s : State) (l : List Word) :
    UnchangedExcept { S := true } s { s with S := l } := by
  constructor
  case S => intro h; cases h
  all_goals intros; rfl

/-- Settles O25: each end of the two operations is one of the equations above. -/
theorem stackPushAndPop : Obligations.StackPushAndPop := by
  refine ⟨fun s a h => ?full, fun s a h => ?append, fun s h => State.pop_of_nil h, fun s l a h => ?last⟩
  case full => exact State.push_of_not_lt (by omega) a
  case append => exact ⟨_, State.push_of_lt h a, rfl, setStack_unchanged s _⟩
  case last => exact ⟨_, State.pop_of_concat h, rfl, setStack_unchanged s l⟩

/-! ### What execution does to the stack, pc and memory -/

/-- 00EE pops into pc or halts (41_control_flow.md R170). -/
theorem exec_ret_cases {s t : State} (h : exec .ret s = .next t) :
    (s.S = [] ∧ t = s.raiseIn (encode .ret) .stackUnderflow) ∨
    ∃ l a, s.S = l ++ [a] ∧ t = { s with S := l, pc := a } := by
  simp only [exec, execRet] at h
  rcases List.eq_nil_or_concat' s.S with hS | ⟨l, a, hS⟩
  · rw [State.pop_of_nil hS] at h
    cases h
    exact .inl ⟨hS, rfl⟩
  · rw [State.pop_of_concat hS] at h
    cases h
    exact .inr ⟨l, a, hS, rfl⟩

/-- 2NNN pushes pc and jumps, or halts (41_control_flow.md R172). -/
theorem exec_call_cases {nnn : Addr} {s t : State} (h : exec (.call nnn) s = .next t) :
    (s.S.length < 16 ∧ t = { s with S := s.S ++ [s.pc], pc := zextAddr nnn }) ∨
    (¬ s.S.length < 16 ∧ t = s.raiseIn (encode (.call nnn)) .stackOverflow) := by
  simp only [exec, execCall] at h
  by_cases hS : s.S.length < 16
  · rw [State.push_of_lt hS] at h
    cases h
    exact .inl ⟨hS, rfl⟩
  · rw [State.push_of_not_lt hS] at h
    cases h
    exact .inr ⟨hS, rfl⟩

theorem exec_unchanged {i : Instr} {s t : State} (h : exec i s = .next t) :
    UnchangedExcept (mayWrite s i) s t := by
  obtain ⟨u, hu, frame⟩ := exec_next_unchanged i s
  rw [hu] at h
  cases h
  exact frame

/-- The stack after an instruction: as it was, with the return address pushed, or without its last entry. -/
theorem exec_stack {i : Instr} {s t : State} (h : exec i s = .next t) :
    t.S = s.S ∨ (s.S.length < 16 ∧ t.S = s.S ++ [s.pc]) ∨ ∃ a, s.S = t.S ++ [a] := by
  cases i with
  | ret =>
    obtain ⟨-, rfl⟩ | ⟨l, a, hS, rfl⟩ := exec_ret_cases h
    · exact .inl rfl
    · exact .inr (.inr ⟨a, hS⟩)
  | call nnn =>
    obtain ⟨hS, rfl⟩ | ⟨-, rfl⟩ := exec_call_cases h
    · exact .inr (.inl ⟨hS, rfl⟩)
    · exact .inl rfl
  | _ => exact .inl ((exec_unchanged h).S rfl)

theorem zextAddr_toNat_le (nnn : Addr) : (zextAddr nnn).toNat ≤ 0xFFF := by
  simp only [zextAddr]
  bv_omega

/-- V[0] + NNN is at most 0xFF + 0xFFF, so the 16 bits of pc hold it (41_control_flow.md R178). -/
theorem offsetTarget_toNat_le (s : State) (nnn : Addr) : (s.offsetTarget nnn).toNat ≤ 0x10FE := by
  have hreg := (s.reg 0).isLt
  have haddr := nnn.isLt
  simp only [State.offsetTarget, BitVec.toNat_ofNat]
  omega

/-- pc after an instruction: as it was, one instruction on or back, a jump target, or an entry of the
stack. -/
theorem exec_pc {i : Instr} {s t : State} (h : exec i s = .next t) :
    t.pc = s.pc ∨ t.pc = s.pc + 2 ∨ t.pc = s.pc - 2 ∨ t.pc.toNat ≤ 0x10FE ∨ t.pc ∈ s.S := by
  have skipped : ∀ b, (s.skipIf b).pc = s.pc ∨ (s.skipIf b).pc = s.pc + 2 := by
    intro b; cases b <;> simp
  cases i with
  | ret =>
    obtain ⟨-, rfl⟩ | ⟨l, a, hS, rfl⟩ := exec_ret_cases h
    · exact .inl rfl
    · exact .inr (.inr (.inr (.inr (by simp [hS]))))
  | call nnn =>
    obtain ⟨-, rfl⟩ | ⟨-, rfl⟩ := exec_call_cases h
    · exact .inr (.inr (.inr (.inl (Nat.le_trans (zextAddr_toNat_le nnn) (by decide)))))
    · exact .inl rfl
  | jp nnn =>
    cases h
    exact .inr (.inr (.inr (.inl (Nat.le_trans (zextAddr_toNat_le nnn) (by decide)))))
  | jpV0 nnn =>
    cases h
    exact .inr (.inr (.inr (.inl (offsetTarget_toNat_le s nnn))))
  | seImm | sneImm | seReg | sneReg | skp | sknp =>
    cases h
    exact (skipped _).imp_right .inl
  | ldKey x =>
    simp only [exec, execLdKey] at h
    cases hk : s.lowestKey <;> rw [hk] at h <;> cases h
    · exact .inr (.inr (.inl rfl))
    · exact .inl rfl
  | _ => exact .inl ((exec_unchanged h).pc rfl)

theorem finish_memWf {i : Instr} {r : Accesses} {t : State} (h : finish i r = .next t)
    (hr : r.1.MemWf) : t.MemWf := by
  obtain ⟨s, _ | e⟩ := r <;> cases h <;> exact hr

/-- Every instruction keeps memory in canonical form: only FX33 and FX55 write it, byte by byte. -/
theorem exec_memWf {i : Instr} {s t : State} (h : exec i s = .next t) (hm : s.MemWf) : t.MemWf := by
  cases i with
  | ret => obtain ⟨-, rfl⟩ | ⟨l, a, -, rfl⟩ := exec_ret_cases h <;> exact hm
  | call nnn => obtain ⟨-, rfl⟩ | ⟨-, rfl⟩ := exec_call_cases h <;> exact hm
  | ldBcd x => exact finish_memWf h (storeBytes_spec _ s _ hm).wf
  | stRegs x => exact finish_memWf h (storeBytes_spec _ s _ hm).wf
  | ldRegs x =>
    refine finish_memWf h ?_
    rw [(loadRegs_spec _ s _ (regsUpTo_nodup x)).only]
    exact hm
  | drw x y n =>
    simp only [exec, execDrw] at h
    cases hr : s.readBytes s.I.toNat n <;> rw [hr] at h <;> cases h <;> exact hm
  | ldKey x =>
    simp only [exec, execLdKey] at h
    cases hk : s.lowestKey <;> rw [hk] at h <;> cases h <;> exact hm
  | seImm | sneImm | seReg | sneReg | skp | sknp =>
    cases h
    simpa [State.MemWf] using hm
  | _ => cases h; exact hm

/-! ### The invariant -/

/-- A block fresh from initialization meets the invariant for every font base in
range (R50, D6). -/
theorem resetWith_inv {c : Config} (hc : c.wf) : (State.resetWith c).Inv where
  params := hc
  memory := resetWith_memWf c
  depth := Nat.zero_le _
  entries a ha := by cases ha
  pcBound := by simp [State.resetWith]
  record r hr := by cases hr

/-- Settles O15: the default FONT_BASE is in range. -/
theorem resetMeetsInv : Obligations.ResetMeetsInv :=
  resetWith_inv (by decide : resetConfig.wf)

/-- A state in which the word of a cycle is executed: the engine runs and pc is two past an address that
could be fetched from (40_cycle.md R141). -/
structure State.Executing (s : State) : Prop where
  inv     : s.Inv
  running : s.status = .running
  pcLower : 2 ≤ s.pc.toNat
  pcUpper : s.pc.toNat ≤ 0x1000

theorem advance_executing {s : State} (hs : s.Inv) (hrun : s.status = .running)
    (hpc : s.pc.toNat ≤ 0xFFE) : s.advance.Executing := by
  have hadv := advance_toNat hpc
  refine ⟨⟨hs.params, hs.memory, hs.depth, hs.entries, by omega, fun r hr => ?_⟩, hrun, by omega, by omega⟩
  rw [State.advance_status, hrun] at hr
  cases hr

/-- A record agrees with the pc it left when its error is one a word can raise (60_exceptions.md R334). -/
theorem raised_agrees {c : Config} {pc w : Word} {e : Error} (hlow : 2 ≤ pc.toNat)
    (hup : pc.toNat ≤ 0x1000) (notLoad : e.kind ≠ .memoryLoadOverflow)
    (address : ∀ a, e = .outOfBoundsAddress a → a > 0xFFF)
    (opcode : ∀ u, e = .unknownOpcode u → u = w ∧ c.unknownPolicy = .fatal) :
    HaltRecord.Agrees ⟨e, pc - 2, some w⟩ c pc where
  notLoad := notLoad
  address := address
  opcode u hu := by
    obtain ⟨rfl, hfatal⟩ := opcode u hu
    exact ⟨rfl, hfatal⟩
  fetched _ _ := ⟨by bv_omega, by bv_omega⟩
  unread h := by cases h

theorem MayRaise.cases {i : Instr} {e : Error} (h : MayRaise i e) :
    e = .stackOverflow ∨ e = .stackUnderflow ∨ ∃ a, topAddress < a ∧ e = .outOfBoundsAddress a := by
  cases i with
  | call nnn => exact .inl h
  | ret => exact .inr (.inl h)
  | drw | ldBcd | stRegs | ldRegs => exact .inr (.inr h)
  | _ => exact h.elim

theorem MayRaise.agrees {i : Instr} {e : Error} (h : MayRaise i e) {s : State} (hs : s.Executing)
    (c : Config) (w : Word) : HaltRecord.Agrees ⟨e, s.pc - 2, some w⟩ c s.pc := by
  obtain rfl | rfl | ⟨a, ha, rfl⟩ := h.cases
  · exact raised_agrees hs.pcLower hs.pcUpper (by simp [Error.kind]) (by simp) (by simp)
  · exact raised_agrees hs.pcLower hs.pcUpper (by simp [Error.kind]) (by simp) (by simp)
  · refine raised_agrees hs.pcLower hs.pcUpper (by simp [Error.kind]) (fun b hb => ?_) (by simp)
    cases hb
    exact ha

/-- Every instruction keeps the invariant from where a cycle executes it: the stack gets the return address
at most 0x1000, and pc at most a skip past that or a jump target. -/
theorem exec_inv {i : Instr} {s t : State} (hs : s.Executing) (h : exec i s = .next t) : t.Inv := by
  obtain ⟨hinv, hrun, hlow, hup⟩ := hs
  have hcfg : t.cfg = s.cfg := (exec_unchanged h).cfg
  have hmem : t.MemWf := exec_memWf h hinv.memory
  have hdepth : t.S.length ≤ 16 := by
    have := hinv.depth
    obtain hS | ⟨hlt, hS⟩ | ⟨a, hS⟩ := exec_stack h
    · rwa [hS]
    · simp only [hS, List.length_append, List.length_singleton]; omega
    · simp only [hS, List.length_append, List.length_singleton] at this; omega
  have hentries : ∀ a ∈ t.S, a.toNat ≤ 0x1000 := by
    intro a ha
    obtain hS | ⟨-, hS⟩ | ⟨b, hS⟩ := exec_stack h
    · exact hinv.entries a (hS ▸ ha)
    · rw [hS, List.mem_append, List.mem_singleton] at ha
      obtain ha | rfl := ha
      · exact hinv.entries a ha
      · exact hup
    · exact hinv.entries a (hS ▸ List.mem_append_left _ ha)
  have hpc : t.pc.toNat ≤ 0x10FE := by
    obtain hp | hp | hp | hp | hp := exec_pc h
    · rw [hp]; omega
    · rw [hp]; bv_omega
    · rw [hp]; bv_omega
    · exact hp
    · have := hinv.entries _ hp; omega
  refine ⟨hcfg ▸ hinv.params, hmem, hdepth, hentries, hpc, fun r hr => ?_⟩
  obtain hst | ⟨e, hst, hsame, hraise⟩ := exec_status h
  · rw [hst, hrun] at hr; cases hr
  · rw [hst] at hr
    cases hr
    rw [hsame]
    exact hraise.agrees ⟨hinv, hrun, hlow, hup⟩ t.cfg _

/-- A raise keeps the invariant when the record it makes agrees with pc: nothing else changes (R334). -/
theorem raise_inv {s : State} (hs : s.Inv) {e : Error} {a : Word} {w : Option Word}
    (h : HaltRecord.Agrees ⟨e, a, w⟩ s.cfg s.pc) : (s.raise e a w).Inv :=
  ⟨hs.params, hs.memory, hs.depth, hs.entries, hs.pcBound, fun r hr => by cases hr; exact h⟩

/-- The record of a failed fetch agrees with pc, which stays where it is (40_cycle.md R140). -/
theorem fetchFault_agrees {s : State} {e : Error} (h : fetch s = .error e) :
    HaltRecord.Agrees ⟨e, s.pc, none⟩ s.cfg s.pc := by
  obtain ⟨hpc, rfl⟩ := (fetch_error_iff s e).mp h
  refine ⟨by simp [Error.kind], fun a ha => ?_, by simp, by simp, fun _ => ⟨rfl, hpc, rfl⟩⟩
  cases ha
  omega

theorem cycle_inv {s t : State} (hs : s.Inv) (h : cycle s = .next t) : t.Inv := by
  obtain ⟨hrun, hcase⟩ := cycle_cases h
  have executing : ∀ w, fetch s = .ok w → s.advance.Executing := fun w hf =>
    advance_executing hs hrun ((fetch_ok_iff s w).mp hf).1
  cases hcase with
  | fetchFault e hf ht => exact ht ▸ raise_inv hs (fetchFault_agrees hf)
  | instr w i hf hd hx => exact exec_inv (executing w hf) hx
  | unknownFatal w u hf hd hp ht =>
    obtain ⟨hinv, -, hlow, hup⟩ := executing w hf
    refine ht ▸ raise_inv hinv (raised_agrees hlow hup (by simp [Error.kind]) (by simp) fun v hv => ?_)
    cases hv
    exact ⟨rfl, hp⟩
  | unknownNop w u hf hd hp ht => exact ht ▸ (executing w hf).inv

/-- A host step writes the timers and the keys, which the invariant does not read. -/
theorem hostStep_inv {s : State} (hs : s.Inv) (h : HostStep) : (hostStep h s).Inv := by
  obtain ⟨params, memory, depth, entries, pcBound, record⟩ := hs
  cases h <;> exact ⟨params, memory, depth, entries, pcBound, record⟩

theorem takeTurn_inv {turn : Turn} {s t : State} (hs : s.Inv) (h : takeTurn turn s = .next t) : t.Inv := by
  cases turn with
  | cycle => exact cycle_inv hs h
  | host hstep => cases h; exact hostStep_inv hs hstep

theorem nextTurn_inv {s : State} (hs : s.Inv) : s.nextTurn.2.Inv := by
  unfold State.nextTurn
  split
  · exact hs
  · exact ⟨hs.params, hs.memory, hs.depth, hs.entries, hs.pcBound, hs.record⟩

/-- Settles O14: the turn due keeps the invariant, and taking it off the schedule does. -/
theorem stepKeepsInv : Obligations.StepKeepsInv :=
  fun _ _ hs h => takeTurn_inv (nextTurn_inv hs) h

/-! ### Timers and keys -/

theorem mayWrite_DT {s : State} {i : Instr} (h : (mayWrite s i).DT = true) : ∃ x, i = .ldDt x := by
  cases i with
  | ldDt x => exact ⟨x, rfl⟩
  | _ => cases h

theorem mayWrite_ST {s : State} {i : Instr} (h : (mayWrite s i).ST = true) : ∃ x, i = .ldSt x := by
  cases i with
  | ldSt x => exact ⟨x, rfl⟩
  | _ => cases h

/-- A cycle leaves each timer alone unless the due instruction sets it. -/
theorem cycle_timers {s t : State} (h : cycle s = .next t) :
    (t.DT = s.DT ∨ ∃ x, s.dueInstr = some (.ldDt x)) ∧
    (t.ST = s.ST ∨ ∃ x, s.dueInstr = some (.ldSt x)) := by
  obtain ⟨i, hdue, frame⟩ | ⟨-, frame⟩ := cycle_unchanged h
  · constructor
    · cases hw : (mayWrite s.advance i).DT with
      | false => exact .inl (frame.DT hw)
      | true => obtain ⟨x, rfl⟩ := mayWrite_DT hw; exact .inr ⟨x, hdue⟩
    · cases hw : (mayWrite s.advance i).ST with
      | false => exact .inl (frame.ST hw)
      | true => obtain ⟨x, rfl⟩ := mayWrite_ST hw; exact .inr ⟨x, hdue⟩
  · exact ⟨.inl (frame.DT rfl), .inl (frame.ST rfl)⟩

/-- What a turn can do to the timers: a tick takes both down; any other turn leaves each alone, unless it is
a cycle whose due instruction sets it. -/
theorem takeTurn_timers {turn : Turn} {s t : State} (h : takeTurn turn s = .next t) :
    (turn = .host .tick ∧ t.DT = tickDown s.DT ∧ t.ST = tickDown s.ST) ∨
    (t.DT = s.DT ∨ turn = .cycle ∧ ∃ x, s.dueInstr = some (.ldDt x)) ∧
    (t.ST = s.ST ∨ turn = .cycle ∧ ∃ x, s.dueInstr = some (.ldSt x)) := by
  cases turn with
  | cycle =>
    obtain ⟨hDT, hST⟩ := cycle_timers h
    exact .inr ⟨hDT.imp_right (⟨rfl, ·⟩), hST.imp_right (⟨rfl, ·⟩)⟩
  | host hstep =>
    cases hstep with
    | tick => cases h; exact .inl ⟨rfl, rfl, rfl⟩
    | keyUpdate | snapshot | audioPoll => cases h; exact .inr ⟨.inl rfl, .inl rfl⟩

theorem tickDown_toNat_le (b : Byte) : (tickDown b).toNat ≤ b.toNat := by
  rw [tickDown_toNat]
  omega

/-- Settles O20: a tick never raises a timer, and every other turn is settled by what it leaves alone. -/
theorem onlySetAndTickChangeTimers : Obligations.OnlySetAndTickChangeTimers := by
  intro turn s t h
  obtain ⟨rfl, hDT, hST⟩ | ⟨hDT, hST⟩ := takeTurn_timers h
  · exact ⟨fun _ => .inl rfl, fun _ => .inl rfl, fun _ => hDT ▸ tickDown_toNat_le _,
      fun _ => hST ▸ tickDown_toNat_le _⟩
  · refine ⟨fun hne => .inr (hDT.resolve_left hne), fun hne => .inr (hST.resolve_left hne),
      fun notSet => ?_, fun notSet => ?_⟩
    · obtain heq | ⟨hcycle, x, hdue⟩ := hDT
      · exact Nat.le_of_eq (congrArg BitVec.toNat heq)
      · exact absurd hdue (notSet hcycle x)
    · obtain heq | ⟨hcycle, x, hdue⟩ := hST
      · exact Nat.le_of_eq (congrArg BitVec.toNat heq)
      · exact absurd hdue (notSet hcycle x)

theorem cycle_keys {s t : State} (h : cycle s = .next t) : t.keys = s.keys := by
  obtain ⟨i, -, frame⟩ | ⟨-, frame⟩ := cycle_unchanged h
  · exact frame.keys
  · exact frame.keys

/-- Settles O21: no cycle changes the keys, and of the host steps only the key update does. -/
theorem onlyKeyUpdateChangesKeys : Obligations.OnlyKeyUpdateChangesKeys := by
  intro turn s t h hne
  cases turn with
  | cycle => exact absurd (cycle_keys h) hne
  | host hstep =>
    cases hstep with
    | keyUpdate k => cases h; exact ⟨k, rfl, rfl⟩
    | tick | snapshot | audioPoll => cases h; exact absurd rfl hne

/-! ### The flag register -/

theorem VF_mem_regsUpTo {x : Reg} : VF ∈ regsUpTo x ↔ x = VF := by
  rw [mem_regsUpTo]
  exact Fin.last_le_iff

/-- Settles O23: an instruction that changes VF has it among the registers it may write. -/
theorem onlyFlagWritersChangeVF : Obligations.OnlyFlagWritersChangeVF := by
  intro i s t h hne
  have hmem : VF ∈ (mayWrite s i).regs := by
    by_contra hnot
    exact hne ((exec_unchanged h).regs VF hnot)
  cases i with
  | addReg x y | subReg x y | shr x y | subnReg x y | shl x y => exact .inl ⟨x, y, by simp⟩
  | drw => exact .inr (.inl ⟨_, _, _, rfl⟩)
  | ldImm x | addImm x | rnd x | ldReg x | orReg x | andReg x | xorReg x | ldFromDt x | ldKey x =>
    obtain rfl : VF = x := List.mem_singleton.mp hmem
    simp
  | ldRegs x =>
    obtain rfl : x = VF := VF_mem_regsUpTo.mp hmem
    simp
  | _ => cases hmem

end Sys2Proof.Machine

/-! Memory (20_memory.md): the two operations on a byte, who may write memory and the components beside it,
and a stored word that is fetched. -/

namespace Sys2Proof.Machine

/-! ### MemRead and MemWrite (R71) -/

theorem State.memRead_setByte_self {s : State} (hm : s.MemWf) {a : Nat} (ha : a ≤ topAddress) (v : Byte) :
    (s.setByte a v).memRead a = .ok v := by
  rw [State.memRead_ok ha, State.byte_setByte hm, if_pos rfl]

theorem State.memRead_setByte_of_ne (s : State) {a b : Nat} (v : Byte) (h : b ≠ a) :
    (s.setByte a v).memRead b = s.memRead b := by
  simp only [State.memRead, State.byte_setByte_of_ne s v h]

theorem setByte_unchanged (s : State) (a : Nat) (v : Byte) :
    UnchangedExcept { bytes := [a] } s (s.setByte a v) := by
  constructor
  case bytes => exact fun b hb => State.byte_setByte_of_ne s v (List.ne_of_not_mem_cons hb)
  all_goals intros; rfl

/-- Settles O24: inside memory the write is `setByte`, whose reads and frame are said above. -/
theorem memoryReadAfterWrite : Obligations.MemoryReadAfterWrite := by
  intro s a v hs ha
  exact ⟨State.memRead_ok ha, s.setByte a v, State.memWrite_ok ha v,
    State.memRead_setByte_self hs.memory ha v, fun b hb => State.memRead_setByte_of_ne s v hb,
    setByte_unchanged s a v⟩

/-! ### Who may write what (R74; 10_state.md R38, R39, R43) -/

section

variable {s : State} {i : Instr}

theorem mem_mayWrite_bytes {a : Nat} (h : a ∈ (mayWrite s i).bytes) :
    (∃ x, i = .ldBcd x) ∧ a ∈ List.range' s.I.toNat 3 ∨
    ∃ x, i = .stRegs x ∧ a ∈ List.range' s.I.toNat (x.val + 1) := by
  cases i with
  | ldBcd x => exact .inl ⟨⟨x, rfl⟩, h⟩
  | stRegs x => exact .inr ⟨x, rfl, h⟩
  | _ => cases h

theorem mayWrite_disp (h : (mayWrite s i).disp = true) : i = .cls ∨ ∃ x y n, i = .drw x y n := by
  cases i with
  | cls => exact .inl rfl
  | drw x y n => exact .inr ⟨x, y, n, rfl⟩
  | _ => cases h

theorem mayWrite_S (h : (mayWrite s i).S = true) : i = .ret ∨ ∃ nnn, i = .call nnn := by
  cases i with
  | ret => exact .inl rfl
  | call nnn => exact .inr ⟨nnn, rfl⟩
  | _ => cases h

theorem mayWrite_I (h : (mayWrite s i).I = true) :
    (∃ nnn, i = .ldI nnn) ∨ ∃ x, i = .addI x ∨ i = .ldFont x := by
  cases i with
  | ldI nnn => exact .inl ⟨nnn, rfl⟩
  | addI x => exact .inr ⟨x, .inl rfl⟩
  | ldFont x => exact .inr ⟨x, .inr rfl⟩
  | _ => cases h

theorem mayWrite_draws (h : (mayWrite s i).draws = true) : ∃ x kk, i = .rnd x kk := by
  cases i with
  | rnd x kk => exact ⟨x, kk, rfl⟩
  | _ => cases h

end

/-- Settles O22: a component that changed is one the instruction may write. -/
theorem onlyTheseInstructionsWrite : Obligations.OnlyTheseInstructionsWrite := by
  intro i s t h
  have frame := exec_unchanged h
  refine ⟨fun a hne => ?bytes, fun hne => ?disp, fun hne => ?stack, fun hne => ?index, fun hne => ?draws⟩
  case bytes => exact mem_mayWrite_bytes (Decidable.of_not_not (mt (frame.bytes a) hne))
  case disp => exact mayWrite_disp (Bool.of_not_eq_false (mt frame.disp hne))
  case stack => exact mayWrite_S (Bool.of_not_eq_false (mt frame.S hne))
  case index => exact mayWrite_I (Bool.of_not_eq_false (mt frame.I hne))
  case draws => exact mayWrite_draws (Bool.of_not_eq_false (mt frame.draws hne))

/-! ### A word that is stored and then fetched (R76, R89; 70_reset_and_hazards.md R386) -/

theorem regsUpTo_map_getElem? (s : State) {x r : Reg} (h : r ≤ x) :
    ((regsUpTo x).map s.reg)[r.val]? = some (s.reg r) := by
  rw [List.getElem?_map, regsUpTo_getElem? x r.val h]
  rfl

/-- FX55 with every address in memory completes (43_index_memory.md R244). -/
theorem exec_stRegs_completes {s : State} {x : Reg} (hm : s.MemWf) (h : s.I.toNat + x.val ≤ 0xFFF) :
    ∃ t, exec (.stRegs x) s = .next t ∧ (∀ r ≤ x, t.byte (s.I.toNat + r.val) = s.reg r) ∧
      UnchangedExcept { bytes := List.range' s.I.toNat (x.val + 1) } s t := by
  have len : ((regsUpTo x).map s.reg).length = x.val + 1 := by
    rw [List.length_map, regsUpTo_length]
  obtain ⟨t, ht, stored, frame⟩ := finish_store_completes (.stRegs x) hm
    (show s.I.toNat + ((regsUpTo x).map s.reg).length ≤ topAddress + 1 by
      simp only [len, topAddress]; omega)
  rw [len] at frame
  exact ⟨t, ht, fun r hr => stored r.val _ (regsUpTo_map_getElem? s hr), frame⟩

/-- I + r does not wrap while it is in memory. -/
theorem index_add_toNat {a : Word} {r : Nat} (h : a.toNat + r ≤ 0xFFF) :
    (a + BitVec.ofNat 16 r).toNat = a.toNat + r := by
  rw [BitVec.toNat_add, BitVec.toNat_ofNat]
  omega

/-- Settles O45: the fetch reads the two bytes FX55 has stored, at addresses that do not wrap. -/
theorem storeIsSeenByNextFetch : Obligations.StoreIsSeenByNextFetch := by
  intro x r q s t hs hx hqr hqx h
  obtain ⟨u, hu, stored, -⟩ := exec_stRegs_completes hs.memory hx
  obtain rfl : u = t := by rw [h] at hu; cases hu; rfl
  have hq : q.val ≤ x.val := hqx
  have hpc : (s.I + BitVec.ofNat 16 r.val).toNat = s.I.toNat + r.val := index_add_toNat (by omega)
  have high : u.byte (s.I.toNat + r.val) = s.reg r := stored r (Fin.le_def.mpr (by omega))
  have low : u.byte (s.I.toNat + r.val + 1) = s.reg q := by
    rw [Nat.add_assoc, ← hqr]
    exact stored q hqx
  rw [fetch_ok_iff]
  refine ⟨?inMemory, ?bytes⟩
  case inMemory => exact hpc ▸ (by omega : s.I.toNat + r.val ≤ 0xFFE)
  case bytes =>
    show s.reg r ++ s.reg q = wordOfBytes (u.byte (s.I + BitVec.ofNat 16 r.val).toNat)
      (u.byte ((s.I + BitVec.ofNat 16 r.val).toNat + 1))
    rw [hpc, high, low, wordOfBytes]

end Sys2Proof.Machine

/-! The encoding (30_encoding.md): the decoder undoes the encoder, no word loses a bit, and both agree with
R112's table and with the list of Unknown words. -/

namespace Sys2Proof

/-! ### From an instruction to its word and back (R102, R105, R112) -/

/-- The instruction is well formed, belongs to the row of that mnemonic and has that word. -/
structure Instr.SpelledBy (i : Instr) (name : String) (w : Word) : Prop where
  wellFormed : i.wellFormed = true
  mnemonic : i.mnemonic = name
  word : encode i = w

theorem Instr.SpelledBy.congr_word {i : Instr} {name : String} {v w : Word} (h : i.SpelledBy name v)
    (hvw : v = w) : i.SpelledBy name w :=
  hvw ▸ h

theorem nibble_ofNat_toNat {n : Nat} (h : n ≤ 15) : (BitVec.ofNat 4 n).toNat = n := by
  rw [BitVec.toNat_ofNat]
  omega

/-- DXYN with a nibble as its height. -/
theorem drw_spelledBy (x y : Reg) (s : Nibble) :
    (Instr.drw x y s.toNat).SpelledBy "DRW_Vx__Vy__nibble" (wordRegReg 0xD x y s) where
  wellFormed := decide_eq_true (Nat.le_of_lt_succ s.isLt)
  mnemonic := rfl
  word := by rw [encode, BitVec.ofNat_toNat, BitVec.setWidth_eq]

/-- Settles O1: the fields of a format are those it was written with, and the selecting ones pick the row. -/
theorem decodeOfEncodeIsIdentity : Obligations.DecodeOfEncodeIsIdentity := by
  intro i hwf
  cases i with
  | cls | ret => rfl
  | jp | call | ldI | jpV0 | seImm | sneImm | ldImm | addImm | rnd | seReg | sneReg => simp [encode, decode]
  | drw x y n => simp [encode, decode, nibble_ofNat_toNat (of_decide_eq_true hwf)]
  | ldReg | orReg | andReg | xorReg | addReg | subReg | shr | subnReg | shl =>
    simp [encode, decode, decodeFamily8]
  | skp | sknp => simp [encode, decode, decodeFamilyE]
  | ldFromDt | ldKey | ldDt | ldSt | addI | ldFont | ldBcd | stRegs | ldRegs =>
    simp [encode, decode, decodeFamilyF]

/-- Settles O6: each sample is the word the encoder writes for its instruction. -/
theorem sampleWordsDecode : Obligations.SampleWordsDecode :=
  ⟨decodeOfEncodeIsIdentity .cls rfl, decodeOfEncodeIsIdentity (.call 0x300) rfl,
   decodeOfEncodeIsIdentity (.seImm 3 0x05) rfl, decodeOfEncodeIsIdentity (.seReg 1 2 0x1) rfl,
   decodeOfEncodeIsIdentity (.shr 1 2) rfl, decodeOfEncodeIsIdentity (.drw 1 2 5) rfl,
   decodeOfEncodeIsIdentity (.skp 1) rfl, decodeOfEncodeIsIdentity (.stRegs 3) rfl⟩

/-! ### From a word to what it decodes to and back (R104, R106) -/

/-- The decoder's answer keeps every bit of the word: an instruction is well formed and has that word, and
Unknown carries it. -/
def Decoded.Keeps (w : Word) : Decoded → Prop
  | .instr i => i.wellFormed = true ∧ encode i = w
  | .unknown u => u = w

section
variable {w : Word}

theorem wordAddr_of_family {f : Nibble} (hf : famOf w = f) : wordAddr f (nnnOf w) = w :=
  hf ▸ wordAddr_of_fields w

theorem wordRegByte_of_family {f : Nibble} (hf : famOf w = f) : wordRegByte f (xOf w) (kkOf w) = w :=
  hf ▸ wordRegByte_of_fields w

theorem wordRegReg_of_family {f : Nibble} (hf : famOf w = f) : wordRegReg f (xOf w) (yOf w) (nOf w) = w :=
  hf ▸ wordRegReg_of_fields w

theorem wordRegByte_of_family_byte {f : Nibble} {kk : Byte} (h : famOf w = f ∧ kkOf w = kk) :
    wordRegByte f (xOf w) kk = w :=
  h.2 ▸ wordRegByte_of_family h.1

theorem wordRegReg_of_family_nibble {f s : Nibble} (h : famOf w = f ∧ nOf w = s) :
    wordRegReg f (xOf w) (yOf w) s = w :=
  h.2 ▸ wordRegReg_of_family h.1

theorem decodeFamily0_keeps (w : Word) : (decodeFamily0 w).Keeps w := by
  unfold decodeFamily0
  split
  case h_3 => rfl
  all_goals exact ⟨rfl, (BitVec.eq_of_toNat_eq ‹_›).symm⟩

theorem decodeFamily8_keeps (hf : famOf w = 0x8) : (decodeFamily8 w).Keeps w := by
  unfold decodeFamily8
  split
  case h_10 => rfl
  all_goals exact ⟨rfl, wordRegReg_of_family_nibble ⟨hf, BitVec.eq_of_toNat_eq ‹_›⟩⟩

theorem decodeFamilyE_keeps (hf : famOf w = 0xE) : (decodeFamilyE w).Keeps w := by
  unfold decodeFamilyE
  split
  case h_3 => rfl
  all_goals exact ⟨rfl, wordRegByte_of_family_byte ⟨hf, BitVec.eq_of_toNat_eq ‹_›⟩⟩

theorem decodeFamilyF_keeps (hf : famOf w = 0xF) : (decodeFamilyF w).Keeps w := by
  unfold decodeFamilyF
  split
  case h_10 => rfl
  all_goals exact ⟨rfl, wordRegByte_of_family_byte ⟨hf, BitVec.eq_of_toNat_eq ‹_›⟩⟩

end

/-- The decoder drops no bit of the word. The arm `h_k` of `decode` is that of family `k - 1`. -/
theorem decode_keeps (w : Word) : (decode w).Keeps w := by
  unfold decode
  split <;> rename_i h
  case h_1 => exact decodeFamily0_keeps w
  case h_9 => exact decodeFamily8_keeps (BitVec.eq_of_toNat_eq h)
  case h_15 => exact decodeFamilyE_keeps (BitVec.eq_of_toNat_eq h)
  case h_16 => exact decodeFamilyF_keeps (BitVec.eq_of_toNat_eq h)
  case h_2 | h_3 | h_11 | h_12 => exact ⟨rfl, wordAddr_of_family (BitVec.eq_of_toNat_eq h)⟩
  case h_4 | h_5 | h_7 | h_8 | h_13 => exact ⟨rfl, wordRegByte_of_family (BitVec.eq_of_toNat_eq h)⟩
  case h_6 | h_10 => exact ⟨rfl, wordRegReg_of_family (BitVec.eq_of_toNat_eq h)⟩
  case h_14 =>
    have spelled := drw_spelledBy (xOf w) (yOf w) (nOf w)
    exact ⟨spelled.wellFormed, spelled.word.trans (wordRegReg_of_family (BitVec.eq_of_toNat_eq h))⟩
  case h_17 => rfl

/-- Settles O2, from the answer's keeping every bit of the word. -/
theorem decodedWordsReencode : Obligations.DecodedWordsReencode := by
  intro w i h
  have keeps := decode_keeps w
  rwa [h] at keeps

/-- Settles O5: of the decoder's two answers, Unknown keeps the word. -/
theorem decodeIsTotal : Obligations.DecodeIsTotal := by
  intro w
  have keeps := decode_keeps w
  cases h : decode w with
  | instr i => exact .inl ⟨i, rfl⟩
  | unknown u =>
    rw [h] at keeps
    exact .inr (congrArg Decoded.unknown keeps)

/-! ### The opcode table (R112) -/

/-- A word that matches the row is the word of a well-formed instruction with the row's mnemonic. -/
def OpcodeRow.Encoded (r : OpcodeRow) : Prop :=
  ∀ w, r.matchesWord w = true → ∃ i : Instr, i.SpelledBy r.mnemonic w

section
variable {name : String}

theorem matchesWord_whole {p w : Word} (h : OpcodeRow.matchesWord ⟨name, 0xFFFF, p⟩ w = true) : w = p :=
  have mask : w &&& 0xFFFF#16 = w := BitVec.and_allOnes
  mask ▸ eq_of_beq h

theorem matchesWord_family {f : Nibble} {w : Word}
    (h : OpcodeRow.matchesWord ⟨name, 0xF000, wordAddr f 0⟩ w = true) : famOf w = f := by
  simpa [mask_family] using congrArg famOf (eq_of_beq h)

theorem matchesWord_family_byte {f : Nibble} {kk : Byte} {w : Word}
    (h : OpcodeRow.matchesWord ⟨name, 0xF0FF, wordRegByte f 0 kk⟩ w = true) : famOf w = f ∧ kkOf w = kk :=
  ⟨by simpa [mask_family_byte] using congrArg famOf (eq_of_beq h),
   by simpa [mask_family_byte] using congrArg kkOf (eq_of_beq h)⟩

theorem matchesWord_family_nibble {f s : Nibble} {w : Word}
    (h : OpcodeRow.matchesWord ⟨name, 0xF00F, wordRegReg f 0 0 s⟩ w = true) : famOf w = f ∧ nOf w = s :=
  ⟨by simpa [mask_family_nibble] using congrArg famOf (eq_of_beq h),
   by simpa [mask_family_nibble] using congrArg nOf (eq_of_beq h)⟩

theorem encoded_whole {p : Word} (i : Instr) (h : i.SpelledBy name p) :
    OpcodeRow.Encoded ⟨name, 0xFFFF, p⟩ :=
  fun _ hw => ⟨i, h.congr_word (matchesWord_whole hw).symm⟩

theorem encoded_addr (f : Nibble) (mk : Addr → Instr)
    (h : ∀ a, (mk a).SpelledBy name (wordAddr f a)) :
    OpcodeRow.Encoded ⟨name, 0xF000, wordAddr f 0⟩ :=
  fun w hw => ⟨_, (h (nnnOf w)).congr_word (wordAddr_of_family (matchesWord_family hw))⟩

theorem encoded_regImm (f : Nibble) (mk : Reg → Byte → Instr)
    (h : ∀ x kk, (mk x kk).SpelledBy name (wordRegByte f x kk)) :
    OpcodeRow.Encoded ⟨name, 0xF000, wordAddr f 0⟩ :=
  fun w hw => ⟨_, (h (xOf w) (kkOf w)).congr_word (wordRegByte_of_family (matchesWord_family hw))⟩

theorem encoded_regRegAny (f : Nibble) (mk : Reg → Reg → Nibble → Instr)
    (h : ∀ x y s, (mk x y s).SpelledBy name (wordRegReg f x y s)) :
    OpcodeRow.Encoded ⟨name, 0xF000, wordAddr f 0⟩ :=
  fun w hw => ⟨_, (h (xOf w) (yOf w) (nOf w)).congr_word (wordRegReg_of_family (matchesWord_family hw))⟩

theorem encoded_regOp (f : Nibble) (kk : Byte) (mk : Reg → Instr)
    (h : ∀ x, (mk x).SpelledBy name (wordRegByte f x kk)) :
    OpcodeRow.Encoded ⟨name, 0xF0FF, wordRegByte f 0 kk⟩ :=
  fun w hw => ⟨_, (h (xOf w)).congr_word (wordRegByte_of_family_byte (matchesWord_family_byte hw))⟩

theorem encoded_regReg (f s : Nibble) (mk : Reg → Reg → Instr)
    (h : ∀ x y, (mk x y).SpelledBy name (wordRegReg f x y s)) :
    OpcodeRow.Encoded ⟨name, 0xF00F, wordRegReg f 0 0 s⟩ :=
  fun w hw => ⟨_, (h (xOf w) (yOf w)).congr_word (wordRegReg_of_family_nibble (matchesWord_family_nibble hw))⟩

end

theorem opcodeRowsA_encoded : ∀ r ∈ opcodeRowsA, r.Encoded := by
  simp only [opcodeRowsA, List.forall_mem_cons]
  exact ⟨
    encoded_whole .cls ⟨rfl, rfl, rfl⟩,
    encoded_whole .ret ⟨rfl, rfl, rfl⟩,
    encoded_addr 0x1 .jp fun _ => ⟨rfl, rfl, rfl⟩,
    encoded_addr 0x2 .call fun _ => ⟨rfl, rfl, rfl⟩,
    encoded_regImm 0x3 .seImm fun _ _ => ⟨rfl, rfl, rfl⟩,
    encoded_regImm 0x4 .sneImm fun _ _ => ⟨rfl, rfl, rfl⟩,
    encoded_regRegAny 0x5 .seReg fun _ _ _ => ⟨rfl, rfl, rfl⟩,
    encoded_regImm 0x6 .ldImm fun _ _ => ⟨rfl, rfl, rfl⟩,
    encoded_regImm 0x7 .addImm fun _ _ => ⟨rfl, rfl, rfl⟩,
    encoded_regReg 0x8 0x0 .ldReg fun _ _ => ⟨rfl, rfl, rfl⟩,
    encoded_regReg 0x8 0x1 .orReg fun _ _ => ⟨rfl, rfl, rfl⟩,
    encoded_regReg 0x8 0x2 .andReg fun _ _ => ⟨rfl, rfl, rfl⟩,
    List.forall_mem_nil _⟩

theorem opcodeRowsB_encoded : ∀ r ∈ opcodeRowsB, r.Encoded := by
  simp only [opcodeRowsB, List.forall_mem_cons]
  exact ⟨
    encoded_regReg 0x8 0x3 .xorReg fun _ _ => ⟨rfl, rfl, rfl⟩,
    encoded_regReg 0x8 0x4 .addReg fun _ _ => ⟨rfl, rfl, rfl⟩,
    encoded_regReg 0x8 0x5 .subReg fun _ _ => ⟨rfl, rfl, rfl⟩,
    encoded_regReg 0x8 0x6 .shr fun _ _ => ⟨rfl, rfl, rfl⟩,
    encoded_regReg 0x8 0x7 .subnReg fun _ _ => ⟨rfl, rfl, rfl⟩,
    encoded_regReg 0x8 0xE .shl fun _ _ => ⟨rfl, rfl, rfl⟩,
    encoded_regRegAny 0x9 .sneReg fun _ _ _ => ⟨rfl, rfl, rfl⟩,
    encoded_addr 0xA .ldI fun _ => ⟨rfl, rfl, rfl⟩,
    encoded_addr 0xB .jpV0 fun _ => ⟨rfl, rfl, rfl⟩,
    encoded_regImm 0xC .rnd fun _ _ => ⟨rfl, rfl, rfl⟩,
    encoded_regRegAny 0xD (fun x y s => .drw x y s.toNat) drw_spelledBy,
    List.forall_mem_nil _⟩

theorem opcodeRowsC_encoded : ∀ r ∈ opcodeRowsC, r.Encoded := by
  simp only [opcodeRowsC, List.forall_mem_cons]
  exact ⟨
    encoded_regOp 0xE 0x9E .skp fun _ => ⟨rfl, rfl, rfl⟩,
    encoded_regOp 0xE 0xA1 .sknp fun _ => ⟨rfl, rfl, rfl⟩,
    encoded_regOp 0xF 0x07 .ldFromDt fun _ => ⟨rfl, rfl, rfl⟩,
    encoded_regOp 0xF 0x0A .ldKey fun _ => ⟨rfl, rfl, rfl⟩,
    encoded_regOp 0xF 0x15 .ldDt fun _ => ⟨rfl, rfl, rfl⟩,
    encoded_regOp 0xF 0x18 .ldSt fun _ => ⟨rfl, rfl, rfl⟩,
    encoded_regOp 0xF 0x1E .addI fun _ => ⟨rfl, rfl, rfl⟩,
    encoded_regOp 0xF 0x29 .ldFont fun _ => ⟨rfl, rfl, rfl⟩,
    encoded_regOp 0xF 0x33 .ldBcd fun _ => ⟨rfl, rfl, rfl⟩,
    encoded_regOp 0xF 0x55 .stRegs fun _ => ⟨rfl, rfl, rfl⟩,
    encoded_regOp 0xF 0x65 .ldRegs fun _ => ⟨rfl, rfl, rfl⟩,
    List.forall_mem_nil _⟩

theorem opcodeRows_encoded {r : OpcodeRow} (hr : r ∈ opcodeRows) : r.Encoded := by
  rw [opcodeRows, List.mem_append, List.mem_append] at hr
  obtain (hA | hB) | hC := hr
  · exact opcodeRowsA_encoded r hA
  · exact opcodeRowsB_encoded r hB
  · exact opcodeRowsC_encoded r hC

open Laws in
/-- The word of every instruction matches the row of its mnemonic. -/
theorem matchesOpcodeRow : ∀ i : Instr, MatchesOpcodeRow.Statement i
  | .cls => MatchesOpcodeRow.cls
  | .ret => MatchesOpcodeRow.ret
  | .jp nnn => MatchesOpcodeRow.jp nnn
  | .call nnn => MatchesOpcodeRow.call nnn
  | .seImm x kk => MatchesOpcodeRow.seImm x kk
  | .sneImm x kk => MatchesOpcodeRow.sneImm x kk
  | .seReg x y low => MatchesOpcodeRow.seReg x y low
  | .ldImm x kk => MatchesOpcodeRow.ldImm x kk
  | .addImm x kk => MatchesOpcodeRow.addImm x kk
  | .ldReg x y => MatchesOpcodeRow.ldReg x y
  | .orReg x y => MatchesOpcodeRow.orReg x y
  | .andReg x y => MatchesOpcodeRow.andReg x y
  | .xorReg x y => MatchesOpcodeRow.xorReg x y
  | .addReg x y => MatchesOpcodeRow.addReg x y
  | .subReg x y => MatchesOpcodeRow.subReg x y
  | .shr x y => MatchesOpcodeRow.shr x y
  | .subnReg x y => MatchesOpcodeRow.subnReg x y
  | .shl x y => MatchesOpcodeRow.shl x y
  | .sneReg x y low => MatchesOpcodeRow.sneReg x y low
  | .ldI nnn => MatchesOpcodeRow.ldI nnn
  | .jpV0 nnn => MatchesOpcodeRow.jpV0 nnn
  | .rnd x kk => MatchesOpcodeRow.rnd x kk
  | .drw x y n => MatchesOpcodeRow.drw x y n
  | .skp x => MatchesOpcodeRow.skp x
  | .sknp x => MatchesOpcodeRow.sknp x
  | .ldFromDt x => MatchesOpcodeRow.ldFromDt x
  | .ldKey x => MatchesOpcodeRow.ldKey x
  | .ldDt x => MatchesOpcodeRow.ldDt x
  | .ldSt x => MatchesOpcodeRow.ldSt x
  | .addI x => MatchesOpcodeRow.addI x
  | .ldFont x => MatchesOpcodeRow.ldFont x
  | .ldBcd x => MatchesOpcodeRow.ldBcd x
  | .stRegs x => MatchesOpcodeRow.stRegs x
  | .ldRegs x => MatchesOpcodeRow.ldRegs x

/-- Settles O3: a row's words are those of its instructions, and an instruction's word matches a row. -/
theorem decodeFollowsOpcodeTable : Obligations.DecodeFollowsOpcodeTable := by
  intro w
  refine ⟨fun r hr hmatch => ?row, fun hnone => ?noRow⟩
  case row =>
    obtain ⟨i, hwf, hname, rfl⟩ := opcodeRows_encoded hr w hmatch
    exact ⟨i, decodeOfEncodeIsIdentity i hwf, hname⟩
  case noRow =>
    obtain ⟨i, hi⟩ | hu := decodeIsTotal w
    · obtain ⟨-, rfl⟩ := decodedWordsReencode w i hi
      obtain ⟨r, hr, -, hmatch⟩ := matchesOpcodeRow i
      rw [hnone r hr] at hmatch
      cases hmatch
    · exact hu

/-! ### The Unknown words (R107, R120) -/

section
variable (w : Word)

theorem decodeFamily0_eq_unknown_iff : decodeFamily0 w = .unknown w ↔ w ≠ 0x00E0 ∧ w ≠ 0x00EE := by
  unfold decodeFamily0
  split <;> simp_all [← BitVec.toNat_inj]

theorem decodeFamily8_eq_unknown_iff :
    decodeFamily8 w = .unknown w ↔ nOf w ∉ [0x0, 0x1, 0x2, 0x3, 0x4, 0x5, 0x6, 0x7, 0xE] := by
  unfold decodeFamily8
  split <;> simp_all [← BitVec.toNat_inj]

theorem decodeFamilyE_eq_unknown_iff : decodeFamilyE w = .unknown w ↔ kkOf w ∉ [0x9E, 0xA1] := by
  unfold decodeFamilyE
  split <;> simp_all [← BitVec.toNat_inj]

theorem decodeFamilyF_eq_unknown_iff :
    decodeFamilyF w = .unknown w ↔ kkOf w ∉ [0x07, 0x0A, 0x15, 0x18, 0x1E, 0x29, 0x33, 0x55, 0x65] := by
  unfold decodeFamilyF
  split <;> simp_all [← BitVec.toNat_inj]

end

/-- The low nibbles that select no instruction of family 8. -/
theorem nibble_selects_none : ∀ n : Nibble,
    n ∈ [0x8, 0x9, 0xA, 0xB, 0xC, 0xD, 0xF] ↔ n ∉ [0x0, 0x1, 0x2, 0x3, 0x4, 0x5, 0x6, 0x7, 0xE] := by
  decide

/-- Settles O4: only the four families that look further have an Unknown word, and each says which. -/
theorem unknownWordsByFamily : Obligations.UnknownWordsByFamily := by
  intro w
  have bound := (famOf w).isLt
  rw [nibble_selects_none, ← decodeFamily0_eq_unknown_iff, ← decodeFamily8_eq_unknown_iff,
    ← decodeFamilyE_eq_unknown_iff, ← decodeFamilyF_eq_unknown_iff]
  unfold decode
  split
  case h_17 => -- the last arm is no nibble's
    simp only [imp_false] at *
    omega
  all_goals simp [← BitVec.toNat_inj, *]

end Sys2Proof

/-! The cycle (40_cycle.md): the fetch, the word that is executed, and how a cycle ends. -/

namespace Sys2Proof.Machine

/-! ### The Unknown words (R145, R146) -/

/-- Unknown carries the raw word (30_encoding.md R104). -/
theorem decode_unknown_word {w u : Word} (h : decode w = .unknown u) : u = w := by
  obtain ⟨i, hi⟩ | hw := decodeIsTotal w
  · rw [hi] at h; cases h
  · rw [hw] at h; cases h; rfl

section

variable {s : State} {w u : Word} (hs : s.status = .running) (hf : fetch s = .ok w)
  (hd : decode w = .unknown u)

include hs hf hd

theorem cycle_of_unknown_fatal (hp : s.cfg.unknownPolicy = .fatal) :
    cycle s = .next (s.advance.raiseIn u (.unknownOpcode u)) := by
  simp [cycle, hs, hf, execute, hd, executeUnknown, hp]

theorem cycle_of_unknown_nop (hp : s.cfg.unknownPolicy = .nop) : cycle s = .next s.advance := by
  simp [cycle, hs, hf, execute, hd, executeUnknown, hp]

end

/-- A raise in the word of a cycle records the pc the cycle fetched from (60_exceptions.md R334). -/
theorem raiseIn_advance_status (s : State) (w : Word) (e : Error) :
    (s.advance.raiseIn w e).status = .halted ⟨e, s.pc, some w⟩ := by
  rw [← advance_sub_two s]
  rfl

/-- Settles O9: pc advances, and the raise in the advanced state writes the status alone. -/
theorem unknownWordHaltsWhenFatal : Obligations.UnknownWordHaltsWhenFatal := by
  intro s w hs hf hd hp
  exact ⟨_, cycle_of_unknown_fatal hs hf hd hp, raiseIn_advance_status s w _, rfl,
    (advance_unchanged s _ rfl).trans (raiseIn_unchanged s.advance w _ _ rfl)⟩

/-- Settles O10: the cycle ends in the advanced state. -/
theorem unknownWordIsSkippedWhenNop : Obligations.UnknownWordIsSkippedWhenNop := by
  intro s w hs hf hd hp
  exact ⟨_, cycle_of_unknown_nop hs hf hd hp, rfl, hs, advance_unchanged s _ rfl⟩

/-! ### Fetch and step (R140 to R144) -/

/-- Settles O7: the fetch at either side of 0xFFE, and the halt a failed fetch makes. -/
theorem fetchReadsTwoBytesOrHalts : Obligations.FetchReadsTwoBytesOrHalts := by
  refine fun s => ⟨fun hpc => fetch_of_le hpc, fun hpc hs => ?_⟩
  exact ⟨_, cycle_of_fetch_error hs (fetch_of_gt hpc), rfl, raise_unchanged s _ _ _ _ rfl⟩

/-- The cycle of a running engine runs the instruction at pc, from the advanced state. -/
theorem cycle_of_bytes {s : State} {i : Instr} (hs : s.status = .running) (hpc : s.pc.toNat ≤ 0xFFE)
    (hd : decode (wordOfBytes (s.byte s.pc.toNat) (s.byte (s.pc.toNat + 1))) = .instr i) :
    cycle s = exec i s.advance :=
  cycle_of_instr hs (fetch_of_le hpc) hd

/-- Settles O8: the cycle does not read the schedule that `step` takes its turn off. -/
theorem stepRunsDecodedInstruction : Obligations.StepRunsDecodedInstruction := by
  intro s i hs hpc hd
  refine ⟨advance_toNat hpc, fun hnil => ?unscheduled, fun ts hcons => ?scheduled⟩
  case unscheduled => rw [step_of_nil hnil, cycle_of_bytes hs hpc hd, State.advance]
  case scheduled =>
    rw [step_of_cons hcons, takeTurn_cycle, cycle_of_bytes (s := { s with schedule := ts }) hs hpc hd,
      State.advance]

/-! ### How a cycle ends (R147, R149) -/

/-- Settles O11: an instruction's halt records its own encoding, which is the fetched word. -/
theorem cycleEndsRunningOrHalted : Obligations.CycleEndsRunningOrHalted := by
  intro s hs
  obtain ⟨t, hcycle⟩ := cycle_next_of_running hs
  obtain ⟨-, hcase⟩ := cycle_cases hcycle
  refine ⟨t, hcycle, ?_⟩
  cases hcase with
  | fetchFault e hf ht =>
    subst ht
    exact .inr ⟨_, rfl, rfl, .inl ⟨hf, rfl, rfl⟩⟩
  | instr w i hf hd hx =>
    obtain hst | ⟨e, hst, hpc, -⟩ := exec_status hx
    · exact .inl (hst.trans hs)
    · obtain ⟨-, rfl⟩ := decodedWordsReencode w i hd
      exact .inr ⟨_, hst, advance_sub_two s, .inr ⟨_, hf, rfl, hpc⟩⟩
  | unknownFatal w u hf hd hp ht =>
    obtain rfl := decode_unknown_word hd
    subst ht
    exact .inr ⟨_, raiseIn_advance_status s u _, rfl, .inr ⟨u, hf, rfl, rfl⟩⟩
  | unknownNop w u hf hd hp ht => exact .inl (ht ▸ hs)

/-- A host step writes the timers and the keys alone (60_exceptions.md R357). -/
theorem hostStep_writes_timers_keys (h : HostStep) (s : State) :
    hostStep h s =
      { s with DT := (hostStep h s).DT, ST := (hostStep h s).ST, keys := (hostStep h s).keys } := by
  cases h <;> rfl

/-- Settles O12: no cycle runs, and no host step writes the status. -/
theorem haltedEngineStaysHalted : Obligations.HaltedEngineStaysHalted := by
  intro s r hs
  refine ⟨cycle_of_halted hs, fun h => ⟨hostStep h s, takeTurn_host h s, ?status, ?frame⟩⟩
  case status => rw [hostStep_writes_timers_keys]; exact hs
  case frame => exact hostStep_writes_timers_keys h s

end Sys2Proof.Machine

/-! Control flow (41_control_flow.md): return, jumps, call and skips. Each instruction's meaning is said
once, as the state it ends in. -/

namespace Sys2Proof.Machine

/-! ### Frames, jump targets and word families -/

theorem setPc_unchanged (s : State) (a : Word) : UnchangedExcept { pc := true } s { s with pc := a } := by
  constructor
  case pc => intro h; cases h
  all_goals intros; rfl

theorem setStackPc_unchanged (s : State) (l : List Word) (a : Word) :
    UnchangedExcept { pc := true, S := true } s { s with S := l, pc := a } := by
  constructor
  case pc => intro h; cases h
  case S => intro h; cases h
  all_goals intros; rfl

theorem zextAddr_toNat (nnn : Addr) : (zextAddr nnn).toNat = nnn.toNat :=
  BitVec.toNat_setWidth_of_le (by decide)

/-- The sum is at most 0x10FE, so pc holds it unwrapped (R178, D10). -/
theorem offsetTarget_toNat (s : State) (nnn : Addr) :
    (s.offsetTarget nnn).toNat = (s.reg 0).toNat + nnn.toNat := by
  have hreg := (s.reg 0).isLt
  have haddr := nnn.isLt
  rw [State.offsetTarget, BitVec.toNat_ofNat, Nat.mod_eq_of_lt (by omega)]

/-- With pc at 0xFFF or 0x1000 the first bad address of the fetch is 0x1000 (40_cycle.md R140). -/
theorem fetch_above_last {s : State} {a : Word} (hpc : s.pc = a) (ha : 0xFFF ≤ a.toNat ∧ a.toNat ≤ 0x1000) :
    fetch s = .error (.outOfBoundsAddress 0x1000) := by
  subst hpc
  rw [fetch_of_gt (by omega), Nat.max_eq_right ha.2]

/-- Mask F000 of a word of a known family (30_encoding.md R101). -/
theorem mask_of_family {w : Word} {f : Nibble} (h : famOf w = f) : w &&& 0xF000 = wordAddr f 0 :=
  h ▸ mask_family w

/-! ### Return (R170) -/

theorem exec_ret_of_concat {s : State} {l : List Word} {a : Word} (h : s.S = l ++ [a]) :
    exec .ret s = .next { s with S := l, pc := a } := by
  simp only [exec, execRet, State.pop_of_concat h]

theorem exec_ret_of_nil {s : State} (h : s.S = []) :
    exec .ret s = .next (s.raiseIn (encode .ret) .stackUnderflow) := by
  simp only [exec, execRet, State.pop_of_nil h]

/-- Settles O26: the two ends of `pop`, and the fetch at a return address of 0x1000. -/
theorem returnPopsIntoPc : Obligations.ReturnPopsIntoPc := by
  refine ⟨by decide, fun s l a h => ?pops, fun s h => ?underflows⟩
  case pops =>
    exact ⟨_, exec_ret_of_concat h, rfl, rfl, setStackPc_unchanged s l a,
      fun ha => fetch_above_last ha (by decide)⟩
  case underflows => exact ⟨_, exec_ret_of_nil h, rfl, raiseIn_unchanged s _ _ _ rfl⟩

/-! ### Jumps (R171, R178) -/

/-- Settles O27: the jump writes pc alone, and 0xFFF holds one byte of a word only. -/
theorem jumpSetsPc : Obligations.JumpSetsPc := by
  intro nnn s
  exact ⟨mask_of_family (famOf_wordAddr 0x1 nnn), _, rfl, zextAddr_toNat nnn, setPc_unchanged s _,
    fun hlast => fetch_above_last (congrArg zextAddr hlast) (by decide)⟩

/-- Settles O31: the jump writes pc alone, with the unwrapped sum. -/
theorem jumpWithOffset : Obligations.JumpWithOffset :=
  fun nnn s => ⟨_, rfl, offsetTarget_toNat s nnn, setPc_unchanged s _⟩

/-! ### Call (R172) -/

theorem exec_call_of_lt {s : State} (h : s.S.length < 16) (nnn : Addr) :
    exec (.call nnn) s = .next { s with S := s.S ++ [s.pc], pc := zextAddr nnn } := by
  simp only [exec, execCall, State.push_of_lt h]

theorem exec_call_of_not_lt {s : State} (h : ¬ s.S.length < 16) (nnn : Addr) :
    exec (.call nnn) s = .next (s.raiseIn (encode (.call nnn)) .stackOverflow) := by
  simp only [exec, execCall, State.push_of_not_lt h]

/-- Settles O28: the two ends of `push`. -/
theorem callPushesReturnAddress : Obligations.CallPushesReturnAddress := by
  refine fun nnn s => ⟨fun h => ?pushes, fun h => ?overflows⟩
  case pushes =>
    exact ⟨_, exec_call_of_lt h nnn, rfl, zextAddr_toNat nnn, setStackPc_unchanged s _ _⟩
  case overflows =>
    exact ⟨_, exec_call_of_not_lt (by omega) nnn, rfl, raiseIn_unchanged s _ _ _ rfl⟩

/-! ### Skips (R173 to R177) -/

/-- An instruction that means `skipIf` adds 2 to pc exactly when its condition holds, and changes nothing
else. -/
theorem exec_skips_iff {i : Instr} {s : State} {b : Bool} {p : Prop} [Decidable p]
    (hexec : exec i s = .next (s.skipIf b)) (hcond : b = true ↔ p) :
    ∃ t, exec i s = .next t ∧ t.pc = (if p then s.pc + 2 else s.pc) ∧
      UnchangedExcept { pc := true } s t := by
  refine ⟨_, hexec, ?_, skipIf_unchanged s b⟩
  rw [State.skipIf_pc]
  exact if_congr hcond rfl rfl

/-- Settles O29: each word is of its family, and each meaning is a skip under its comparison. -/
theorem skipOnImmediate : Obligations.SkipOnImmediate := by
  intro x kk s
  exact ⟨⟨mask_of_family (famOf_wordRegByte 0x3 x kk), exec_skips_iff rfl beq_iff_eq⟩,
    ⟨mask_of_family (famOf_wordRegByte 0x4 x kk), exec_skips_iff rfl bne_iff_ne⟩⟩

/-- Settles O30: each meaning is a skip under its comparison, and `exec` does not read the low nibble. -/
theorem skipOnRegisters : Obligations.SkipOnRegisters :=
  fun _ _ _ _ => ⟨exec_skips_iff rfl beq_iff_eq, exec_skips_iff rfl bne_iff_ne⟩

end Sys2Proof.Machine

/-! Registers (42_alu.md): loads, arithmetic, logic, shifts and random. Most of them write one register, or a
result and then the flag; the arithmetic of bytes is said apart, in natural numbers and integers. -/

namespace Sys2Proof.Machine

/-! ### Results, flags and word families -/

/-- Mask F00F of a word of a known family and low nibble (30_encoding.md R101). -/
theorem mask_of_family_nibble {w : Word} {f n : Nibble} (hf : famOf w = f) (hn : nOf w = n) :
    w &&& 0xF00F = wordRegReg f 0 0 n := by
  rw [← hf, ← hn]
  exact mask_family_nibble w

/-- The result stands in V[X] unless the flag has overwritten it (R207, D14). -/
theorem State.reg_setRegFlag_of_ne_VF (s : State) {x : Reg} (v f : Byte) (hx : x ≠ VF) :
    (s.setRegFlag x v f).reg x = v := by
  rw [State.reg_setRegFlag, if_neg hx, if_pos rfl]

theorem flagByte_decide (p : Prop) [Decidable p] : flagByte (decide p) = if p then 1 else 0 := by
  by_cases hp : p <;> simp [flagByte, hp]

theorem toNat_sub_emod (a b : Byte) : ((a - b).toNat : Int) = ((a.toNat : Int) - b.toNat) % 256 := by
  have ha := a.isLt
  have hb := b.isLt
  rw [BitVec.toNat_sub]
  omega

theorem shiftRightFlag_toNat (v : Byte) : (shiftRightFlag v).toNat = v.toNat % 2 := by
  rw [shiftRightFlag, BitVec.toNat_and]
  exact Nat.and_one_is_mod _

theorem shiftLeftFlag_toNat (v : Byte) : (shiftLeftFlag v).toNat = v.toNat / 128 := by
  rw [shiftLeftFlag, BitVec.toNat_ushiftRight, Nat.shiftRight_eq_div_pow]

/-! ### One register written (R201 to R206) -/

/-- An instruction that means `setReg` writes V[X] and nothing else. -/
theorem exec_writes_reg {i : Instr} {s : State} {x : Reg} {v : Byte}
    (hexec : exec i s = .next (s.setReg x v)) :
    ∃ t, exec i s = .next t ∧ t.reg x = v ∧ UnchangedExcept { regs := [x] } s t :=
  ⟨_, hexec, State.reg_setReg_same s x v, setReg_unchanged s x v _ (List.mem_singleton.mpr rfl)⟩

/-- Settles O32: each word is of its family, and each meaning writes V[X] alone. -/
theorem loadAndAddImmediate : Obligations.LoadAndAddImmediate := by
  intro x y kk s
  refine ⟨⟨mask_of_family (famOf_wordRegByte 0x6 x kk), exec_writes_reg rfl⟩,
    ⟨mask_of_family (famOf_wordRegByte 0x7 x kk), ?sum⟩,
    ⟨mask_of_family_nibble (famOf_wordRegReg 0x8 x y 0x0) (nOf_wordRegReg 0x8 x y 0x0),
      exec_writes_reg rfl⟩⟩
  case sum =>
    obtain ⟨t, hexec, hreg, frame⟩ : ∃ t, exec (.addImm x kk) s = .next t ∧ t.reg x = s.reg x + kk ∧
      UnchangedExcept { regs := [x] } s t := exec_writes_reg rfl
    exact ⟨t, hexec, by rw [hreg, BitVec.toNat_add], frame⟩

/-- Settles O33: each meaning writes V[X] alone. -/
theorem logicWritesNoFlag : Obligations.LogicWritesNoFlag :=
  fun _ _ _ => ⟨exec_writes_reg rfl, exec_writes_reg rfl, exec_writes_reg rfl⟩

/-! ### A result and then the flag (R207 to R214) -/

section

variable {i : Instr} {s : State} {x : Reg} {a b v : Byte}

theorem exec_adds (hexec : exec i s = .next (s.setRegFlag x (a + b) (carryFlag a b))) :
    ∃ t, exec i s = .next t ∧ (x ≠ VF → (t.reg x).toNat = (a.toNat + b.toNat) % 256) ∧
      t.reg VF = (if a.toNat + b.toNat > 0xFF then 1 else 0) ∧
      UnchangedExcept { regs := [x, VF] } s t := by
  refine ⟨_, hexec, fun hx => ?result, ?flag, setRegFlag_unchanged s x _ _⟩
  case result => rw [State.reg_setRegFlag_of_ne_VF s _ _ hx, BitVec.toNat_add]
  case flag => rw [State.reg_setRegFlag_VF, carryFlag, flagByte_decide]

theorem exec_subtracts (hexec : exec i s = .next (s.setRegFlag x (a - b) (noBorrowFlag a b))) :
    ∃ t, exec i s = .next t ∧
      (x ≠ VF → ((t.reg x).toNat : Int) = ((a.toNat : Int) - b.toNat) % 256) ∧
      t.reg VF = (if a.toNat ≥ b.toNat then 1 else 0) ∧ UnchangedExcept { regs := [x, VF] } s t := by
  refine ⟨_, hexec, fun hx => ?result, ?flag, setRegFlag_unchanged s x _ _⟩
  case result => rw [State.reg_setRegFlag_of_ne_VF s _ _ hx, toNat_sub_emod]
  case flag => rw [State.reg_setRegFlag_VF, noBorrowFlag, flagByte_decide]

theorem exec_shifts_right (hexec : exec i s = .next (s.setRegFlag x (v >>> 1) (shiftRightFlag v))) :
    ∃ t, exec i s = .next t ∧ (x ≠ VF → (t.reg x).toNat = v.toNat / 2) ∧
      (t.reg VF).toNat = v.toNat % 2 ∧ UnchangedExcept { regs := [x, VF] } s t := by
  refine ⟨_, hexec, fun hx => ?result, ?flag, setRegFlag_unchanged s x _ _⟩
  case result =>
    rw [State.reg_setRegFlag_of_ne_VF s _ _ hx, BitVec.toNat_ushiftRight, Nat.shiftRight_eq_div_pow]
  case flag => rw [State.reg_setRegFlag_VF, shiftRightFlag_toNat]

theorem exec_shifts_left (hexec : exec i s = .next (s.setRegFlag x (v <<< 1) (shiftLeftFlag v))) :
    ∃ t, exec i s = .next t ∧ (x ≠ VF → (t.reg x).toNat = v.toNat * 2 % 256) ∧
      (t.reg VF).toNat = v.toNat / 128 ∧ UnchangedExcept { regs := [x, VF] } s t := by
  refine ⟨_, hexec, fun hx => ?result, ?flag, setRegFlag_unchanged s x _ _⟩
  case result =>
    rw [State.reg_setRegFlag_of_ne_VF s _ _ hx, BitVec.toNat_shiftLeft, Nat.shiftLeft_eq]
  case flag => rw [State.reg_setRegFlag_VF, shiftLeftFlag_toNat]

end

/-- Settles O34: one sum with its carry, and two differences with the operands exchanged. -/
theorem addAndSubtractWithFlag : Obligations.AddAndSubtractWithFlag :=
  fun _ _ _ => ⟨exec_adds rfl, exec_subtracts rfl, exec_subtracts rfl⟩

/-- The source the quirk selects (R214, D16). -/
theorem State.shiftSource_eq {s : State} {x y : Reg} {v : Byte}
    (h : s.cfg.shiftQuirk = .legacy ∧ v = s.reg y ∨ s.cfg.shiftQuirk = .modern ∧ v = s.reg x) :
    s.shiftSource x y = v := by
  obtain ⟨hq, rfl⟩ | ⟨hq, rfl⟩ := h <;> simp only [State.shiftSource, hq]

/-- Settles O35: both meanings shift the source that the quirk selects. -/
theorem shiftsFollowQuirk : Obligations.ShiftsFollowQuirk := by
  intro x y v s hsource
  obtain rfl := State.shiftSource_eq hsource
  exact ⟨exec_shifts_right rfl, exec_shifts_left rfl⟩

/-! ### Random (R215) -/

/-- Settles O36: the meaning writes the masked draw and counts it, whatever byte is drawn. -/
theorem randomUnderMask : Obligations.RandomUnderMask :=
  fun x kk s => ⟨_, rfl, State.reg_setReg_same s x _, rfl, exec_unchanged (i := .rnd x kk) rfl⟩

end Sys2Proof.Machine

/-! The index register and memory transfer (43_index_memory.md). A store's accesses are said in
Laws/Frames.lean; a load's are said here, and each obligation reads its instruction's accesses off them. -/

namespace Sys2Proof.Machine

/-! ### The index register (R240 to R242) -/

/-- Mask F0FF of a word of a known family and low byte (30_encoding.md R101). -/
theorem mask_of_family_byte {w : Word} {f : Nibble} {kk : Byte} (hf : famOf w = f) (hk : kkOf w = kk) :
    w &&& 0xF0FF = wordRegByte f 0 kk := by
  rw [← hf, ← hk]
  exact mask_family_byte w

/-- A glyph's address fits in I, wherever the font is. -/
theorem glyphAddress_toNat (c : Config) (v : Byte) :
    (glyphAddress c v).toNat = c.fontBase.toNat + 5 * (v.toNat % 16) := by
  have hbase := c.fontBase.isLt
  rw [glyphAddress, BitVec.toNat_ofNat, Nat.mod_eq_of_lt (by omega)]

/-- Settles O37: both instructions write I alone, with an address that is not truncated. -/
theorem indexLoads : Obligations.IndexLoads := by
  refine ⟨fun nnn s => ?address, fun x s => ?glyph⟩
  case address =>
    exact ⟨mask_of_family (famOf_wordAddr 0xA nnn), _, rfl, zextAddr_toNat nnn,
      exec_unchanged (i := .ldI nnn) rfl⟩
  case glyph =>
    have haddr := glyphAddress_toNat s.cfg (s.reg x)
    refine ⟨mask_of_family_byte (famOf_wordRegByte 0xF x 0x29) (kkOf_wordRegByte 0xF x 0x29),
      _, rfl, haddr, fun hfont => ?inRange, exec_unchanged (i := .ldFont x) rfl⟩
    case inRange =>
      rw [haddr]
      omega

/-- Settles O38: the sum of words is the sum modulo 2^16. -/
theorem addToIndex : Obligations.AddToIndex := by
  intro x s
  refine ⟨_, rfl, ?sum, exec_unchanged (i := .addI x) rfl⟩
  case sum => rw [BitVec.toNat_add, BitVec.toNat_setWidth_of_le (by decide)]

/-! ### Decimal digits (R243) -/

/-- The hundreds, tens and ones of a byte each fit in a byte. -/
theorem decimalDigits_toNat (v : Byte) :
    (BitVec.ofNat 8 (v.toNat / 100)).toNat = v.toNat / 100 ∧
      (BitVec.ofNat 8 (v.toNat / 10 % 10)).toNat = v.toNat / 10 % 10 ∧
      (BitVec.ofNat 8 (v.toNat % 10)).toNat = v.toNat % 10 := by
  have hv := v.isLt
  refine ⟨?_, ?_, ?_⟩ <;> exact Nat.mod_eq_of_lt (by omega)

/-- Settles O39: the three stores complete, and each stored byte is a digit. -/
theorem decimalStoreCompletes : Obligations.DecimalStoreCompletes := by
  intro x s hs hI
  obtain ⟨hundreds, tens, ones⟩ := decimalDigits_toNat (s.reg x)
  obtain ⟨t, hexec, stored, frame⟩ := finish_store_completes (.ldBcd x) (vs := bcdDigits (s.reg x))
    hs.memory (show s.I.toNat + 3 ≤ 0x1000 by omega)
  exact ⟨t, hexec, (congrArg BitVec.toNat (stored 0 _ rfl)).trans hundreds,
    (congrArg BitVec.toNat (stored 1 _ rfl)).trans tens,
    (congrArg BitVec.toNat (stored 2 _ rfl)).trans ones, frame⟩

/-- Settles O40: the stores halt at the first bad address, above the digits that are in memory. -/
theorem decimalStoreHaltsPartWay : Obligations.DecimalStoreHaltsPartWay := by
  intro x s hs hI
  obtain ⟨hundreds, tens, -⟩ := decimalDigits_toNat (s.reg x)
  obtain ⟨t, hexec, status, stored, frame⟩ := finish_store_halts (.ldBcd x) (vs := bcdDigits (s.reg x))
    hs.memory (List.cons_ne_nil _ _) (show 0x1000 < s.I.toNat + 3 by omega)
  exact ⟨t, hexec, status, fun hin => (congrArg BitVec.toNat (stored 0 _ rfl hin)).trans hundreds,
    fun hin => (congrArg BitVec.toNat (stored 1 _ rfl hin)).trans tens, frame⟩

/-! ### Stored registers (R244) -/

/-- Settles O41, by what FX55 does when it completes. -/
theorem registerStoreCompletes : Obligations.RegisterStoreCompletes :=
  fun _ _ hs hI => exec_stRegs_completes hs.memory hI

/-- Settles O42: the stores halt at the first bad address, above the registers that fit in memory. -/
theorem registerStoreHaltsPartWay : Obligations.RegisterStoreHaltsPartWay := by
  intro x s hs hI
  have len : ((regsUpTo x).map s.reg).length = x.val + 1 := by rw [List.length_map, regsUpTo_length]
  obtain ⟨t, hexec, status, stored, frame⟩ := finish_store_halts (.stRegs x) hs.memory
    (List.ne_nil_of_length_eq_add_one len)
    (show 0x1000 < s.I.toNat + ((regsUpTo x).map s.reg).length by omega)
  rw [len] at frame
  exact ⟨t, hexec, status, fun r hr => stored r.val _ (regsUpTo_map_getElem? s hr), frame⟩

/-! ### Loaded registers (R245) -/

theorem regsUpTo_getElem?_eq_some_iff {x r : Reg} {k : Nat} :
    (regsUpTo x)[k]? = some r ↔ r ≤ x ∧ k = r.val := by
  constructor
  case mp =>
    intro h
    have hk : k ≤ x.val := by
      have hlen := (List.getElem?_eq_some_iff.mp h).1
      rw [regsUpTo_length] at hlen
      omega
    rw [regsUpTo_getElem? x k hk] at h
    cases h
    exact ⟨hk, rfl⟩
  case mpr =>
    rintro ⟨hr, rfl⟩
    exact regsUpTo_getElem? x r.val hr

/-- A load of V0 to VX takes each register from its own address, as far as memory goes. -/
theorem reg_loadRegs_regsUpTo (s : State) (a : Nat) (x r : Reg) :
    (s.loadRegs a (regsUpTo x)).1.reg r =
      if r ≤ x ∧ a + r.val ≤ topAddress then s.byte (a + r.val) else s.reg r := by
  obtain ⟨-, loaded, kept, -⟩ := loadRegs_spec (regsUpTo x) s a (regsUpTo_nodup x)
  split
  case isTrue h => exact loaded r.val r (regsUpTo_getElem? x r.val h.1) h.2
  case isFalse h =>
    refine kept r fun k hk => ?_
    obtain ⟨hr, rfl⟩ := regsUpTo_getElem?_eq_some_iff.mp hk
    exact Nat.lt_of_not_le fun hin => h ⟨hr, hin⟩

theorem setV_unchanged {s : State} {V : Vector Byte 16} {w : Writes}
    (h : ∀ r, r ∉ w.regs → State.reg { s with V := V } r = s.reg r) :
    UnchangedExcept w s { s with V := V } := by
  constructor
  case regs => exact h
  all_goals intros; rfl

/-- A load changes no component but the registers it takes from memory. -/
theorem loadRegs_regsUpTo_unchanged (s : State) (a : Nat) (x : Reg) {w : Writes}
    (hw : ∀ r ≤ x, a + r.val ≤ topAddress → r ∈ w.regs) :
    UnchangedExcept w s (s.loadRegs a (regsUpTo x)).1 := by
  have only := (loadRegs_spec (regsUpTo x) s a (regsUpTo_nodup x)).only
  rw [only]
  refine setV_unchanged fun r hr => ?_
  rw [← only, reg_loadRegs_regsUpTo, if_neg fun ⟨hx, hin⟩ => hr (hw r hx hin)]

theorem loadRegs_regsUpTo_error (s : State) (a : Nat) (x : Reg) :
    (s.loadRegs a (regsUpTo x)).2 =
      if a + x.val ≤ topAddress then none else some (.outOfBoundsAddress (max a (topAddress + 1))) := by
  have nonempty : regsUpTo x ≠ [] := List.ne_nil_of_length_eq_add_one (regsUpTo_length x)
  rw [(loadRegs_spec (regsUpTo x) s a (regsUpTo_nodup x)).error, regsUpTo_length]
  simp only [nonempty, or_false, ← Nat.add_assoc, Nat.add_le_add_iff_right]

/-- Settles O43: the load raises nothing, so it takes every register up to VX. -/
theorem registerLoadCompletes : Obligations.RegisterLoadCompletes := by
  intro x s hI
  obtain ⟨t, hexec, ht⟩ := finish_next (.ldRegs x) (s.loadRegs s.I.toNat (regsUpTo x))
  rw [loadRegs_regsUpTo_error, if_pos (show _ ≤ topAddress from hI)] at ht
  subst ht
  refine ⟨_, hexec, fun r hr => ?loaded, loadRegs_regsUpTo_unchanged s _ x fun r hr _ => ?named⟩
  case loaded =>
    have hin : s.I.toNat + r.val ≤ topAddress := le_trans (Nat.add_le_add_left hr _) hI
    exact (reg_loadRegs_regsUpTo s _ x r).trans (if_pos ⟨hr, hin⟩)
  case named => exact List.mem_filter.mpr ⟨List.mem_finRange r, decide_eq_true hr⟩

/-- Settles O44: the load raises at the first bad address, and the halt keeps what was loaded before. -/
theorem registerLoadHaltsPartWay : Obligations.RegisterLoadHaltsPartWay := by
  intro x s hI
  obtain ⟨t, hexec, ht⟩ := finish_next (.ldRegs x) (s.loadRegs s.I.toNat (regsUpTo x))
  rw [loadRegs_regsUpTo_error, if_neg (show ¬ _ ≤ topAddress from Nat.not_le_of_gt hI)] at ht
  subst ht
  have frame := loadRegs_regsUpTo_unchanged s s.I.toNat x
    (w := { regs := (List.finRange 16).filter fun r => decide (r ≤ x ∧ s.I.toNat + r.val ≤ 0xFFF)
            status := true })
    fun r hr hin => List.mem_filter.mpr ⟨List.mem_finRange r, decide_eq_true ⟨hr, hin⟩⟩
  refine ⟨_, hexec, ?status, fun r hr hin => ?loaded, frame.trans (raiseIn_unchanged _ _ _ _ rfl)⟩
  case status =>
    rw [State.raiseIn_status, frame.pc rfl]
    rfl
  case loaded => exact (reg_loadRegs_regsUpTo s _ x r).trans (if_pos ⟨hr, hin⟩)

end Sys2Proof.Machine

/-! The display (44_display.md). What one plot does to the pixels is said in Laws/Display.lean; here are the
clear, the two ends of DXYN, which the bytes it reads decide, and the plot made twice. -/

namespace Sys2Proof.Machine

/-! ### Clear (R270) -/

/-- Settles O46: the cleared display has no pixel on, and CLS may write nothing else. -/
theorem clearTurnsEveryPixelOff : Obligations.ClearTurnsEveryPixelOff :=
  ⟨by decide, fun _ => ⟨_, rfl, Display.pixel_clear, exec_unchanged (i := .cls) rfl⟩⟩

/-! ### Draw (R271 to R275) -/

theorem exec_drw_of_ok {s : State} {n : Nat} {bs : List Byte} (h : s.readBytes s.I.toNat n = .ok bs)
    (x y : Reg) :
    exec (.drw x y n) s =
      .next ({ s with disp := (plotSprite (s.reg x) (s.reg y) bs s.disp).1 }.setReg VF
        (collisionFlag (plotSprite (s.reg x) (s.reg y) bs s.disp).2)) := by
  simp only [exec, execDrw, h]

theorem exec_drw_of_error {s : State} {n : Nat} {e : Error} (h : s.readBytes s.I.toNat n = .error e)
    (x y : Reg) : exec (.drw x y n) s = .next (s.raiseIn (encode (.drw x y n)) e) := by
  simp only [exec, execDrw, h]

theorem setDisp_unchanged (s : State) (d : Display) {w : Writes} (hw : w.disp = true) :
    UnchangedExcept w s { s with disp := d } := by
  constructor
  case disp => intro h; rw [hw] at h; cases h
  all_goals intros; rfl

theorem collisionFlag_eq_one_iff {b : Bool} : collisionFlag b = 1 ↔ b = true := by
  cases b <;> decide

theorem collisionFlag_eq_one_or_zero (b : Bool) : collisionFlag b = 1 ∨ collisionFlag b = 0 := by
  cases b <;> decide

/-- Settles O47: every byte is read, so DXYN plots the sprite and VF is the plot's collision. -/
theorem drawTogglesCoveredPixels : Obligations.DrawTogglesCoveredPixels := by
  intro x y n bs s hn hI hbs
  have read : s.readBytes s.I.toNat n = .ok bs := by
    rw [readBytes_spec, if_pos (show _ ≤ topAddress + 1 ∨ n = 0 from hI.symm), hbs]
  have rows : bs.length ≤ 32 := by
    rw [hbs, List.length_map, List.length_range']
    omega
  obtain ⟨covered, uncovered, collides⟩ := plotSprite_spec (s.reg x) (s.reg y) bs rows s.disp
  refine ⟨_, exec_drw_of_ok read x y, covered, uncovered, ?flag, ?collision, ?frame⟩
  case flag =>
    rw [State.reg_setReg_same]
    exact collisionFlag_eq_one_or_zero _
  case collision => rw [State.reg_setReg_same, collisionFlag_eq_one_iff, collides]
  case frame => exact (setDisp_unchanged s _ rfl).trans (setReg_unchanged _ VF _ _ List.mem_cons_self)

/-- Settles O48: the reads raise at the first bad address, before the plot, and a raise writes the status
alone. -/
theorem drawHaltsBeforePlotting : Obligations.DrawHaltsBeforePlotting := by
  intro x y n s hpos _ hI
  have raises : s.readBytes s.I.toNat n = .error (.outOfBoundsAddress (max s.I.toNat 0x1000)) := by
    rw [readBytes_spec, if_neg (by simp only [topAddress]; omega)]
    rfl
  exact ⟨_, exec_drw_of_error raises x y, rfl, raiseIn_unchanged s _ _ _ rfl⟩

/-! ### Draw twice (R277, C2) -/

/-- Settles O49: both plots toggle the same pixels, so the second meets a covered pixel on exactly when the
first met it off. -/
theorem plotTwiceRestoresDisplay : Obligations.PlotTwiceRestoresDisplay := by
  intro x y bs d hlen
  have rows : bs.length ≤ 32 := Nat.le_trans hlen (by decide)
  obtain ⟨covered, uncovered, -⟩ := plotSprite_spec x y bs rows d
  obtain ⟨covered', uncovered', collides'⟩ := plotSprite_spec x y bs rows (plotSprite x y bs d).1
  refine ⟨Display.ext_of_pixel fun px py => ?restored, collides'.trans ?collision⟩
  case restored =>
    by_cases hc : SpriteCovers x y bs px py
    · rw [covered' px py hc, covered px py hc, Bool.not_not]
    · rw [uncovered' px py hc, uncovered px py hc]
  case collision =>
    refine exists₂_congr fun px py => and_congr_right fun hc => ?_
    rw [covered px py hc, Bool.not_eq_true']

end Sys2Proof.Machine

/-! Keys and timers (45_keys_timers.md). Which key an instruction reads is said once: the key a register
names, and the lowest pressed one. -/

namespace Sys2Proof.Machine

/-! ### Skips on a key (R300 to R302) -/

/-- The key named is the low four bits of the register's value (R300, D20). -/
theorem State.keyPressed_keyIndex (s : State) (v : Byte) :
    s.keyPressed (keyIndex v) = s.keys.getLsbD (v.toNat % 16) :=
  rfl

/-- Settles O50: each meaning is a skip under the named key, pressed or not. -/
theorem skipOnKey : Obligations.SkipOnKey := by
  intro x s
  refine ⟨exec_skips_iff rfl ?pressed, exec_skips_iff rfl ?released⟩
  case pressed => rw [State.keyPressed_keyIndex]
  case released => rw [Bool.not_eq_true', State.keyPressed_keyIndex]

/-! ### Waiting for a key (R303, R304) -/

theorem State.lowestKey_eq_none_iff {s : State} :
    s.lowestKey = none ↔ ∀ k, s.keyPressed k = false := by
  simp only [State.lowestKey, List.find?_eq_none, List.mem_finRange, forall_const, Bool.not_eq_true]

/-- The search goes up from key 0, so it ends at the key below which none is pressed (D19). -/
theorem State.lowestKey_eq_some {s : State} {k : Fin 16} (hk : s.keyPressed k = true)
    (hlow : ∀ j, j < k → s.keyPressed j = false) : s.lowestKey = some k := by
  have inRange : k.val < (List.finRange 16).length := List.length_finRange.symm ▸ k.isLt
  refine List.find?_eq_some_iff_getElem.mpr
    ⟨hk, k.val, inRange, List.getElem_finRange inRange, fun j hj => ?below⟩
  case below => rw [List.getElem_finRange, hlow _ hj, Bool.not_false]

/-- A key's number fits in a byte. -/
theorem keyByte_toNat (k : Fin 16) : (keyByte k).toNat = k.val := by
  have hk := k.isLt
  rw [keyByte, BitVec.toNat_ofNat, Nat.mod_eq_of_lt (by omega)]

theorem exec_ldKey_of_some {s : State} {k : Fin 16} (h : s.lowestKey = some k) (x : Reg) :
    exec (.ldKey x) s = .next (s.setReg x (keyByte k)) := by
  simp only [exec, execLdKey, h]

theorem exec_ldKey_of_none {s : State} (h : s.lowestKey = none) (x : Reg) :
    exec (.ldKey x) s = .next { s with pc := s.pc - 2 } := by
  simp only [exec, execLdKey, h]

/-- Settles O51: the two ends of the search for the lowest pressed key. -/
theorem waitForKey : Obligations.WaitForKey := by
  refine fun x s => ⟨fun k hk hlow => ?stores, fun hnone => ?waits⟩
  case stores =>
    obtain ⟨t, hexec, hreg, frame⟩ :=
      exec_writes_reg (exec_ldKey_of_some (State.lowestKey_eq_some hk hlow) x)
    exact ⟨t, hexec, by rw [hreg, keyByte_toNat], frame⟩
  case waits =>
    exact ⟨_, exec_ldKey_of_none (State.lowestKey_eq_none_iff.mpr hnone) x, rfl, setPc_unchanged s _⟩

/-! ### Timers (R305 to R307) -/

/-- Mask F0FF keeps the family nibble and the low byte, whatever the register (30_encoding.md R102). -/
theorem mask_wordRegByte (f : Nibble) (x : Reg) (kk : Byte) :
    wordRegByte f x kk &&& 0xF0FF = wordRegByte f 0 kk :=
  mask_of_family_byte (famOf_wordRegByte f x kk) (kkOf_wordRegByte f x kk)

/-- Settles O52: each word is of its family and low byte, and each meaning writes V[X] or one timer alone. -/
theorem timerReadAndSet : Obligations.TimerReadAndSet := by
  refine fun x s => ⟨⟨mask_wordRegByte 0xF x 0x07, ?readsDelay⟩, ⟨mask_wordRegByte 0xF x 0x15, ?setsDelay⟩,
    ⟨mask_wordRegByte 0xF x 0x18, ?setsSound⟩⟩
  case readsDelay => exact exec_writes_reg rfl
  case setsDelay => exact ⟨_, rfl, rfl, exec_unchanged (i := .ldDt x) rfl⟩
  case setsSound => exact ⟨_, rfl, rfl, exec_unchanged (i := .ldSt x) rfl⟩

end Sys2Proof.Machine

/-! Errors, turns and construction (60_exceptions.md): which instruction raises what, what every step and
every list of turns does, the host steps, and the limit on a program's length. -/

namespace Sys2Proof.Machine

/-! ### Raises (R332, R333, R336) -/

/-- Settles O13: a halt of a running engine holds an error the instruction may raise. -/
theorem errorKindsPerInstruction : Obligations.ErrorKindsPerInstruction := by
  intro i s t r hrun hexec hhalt
  obtain hsame | ⟨e, hst, -, hraise⟩ := exec_status hexec
  · rw [hsame, hrun] at hhalt; cases hhalt
  rw [hst] at hhalt
  cases hhalt
  cases i with
  | call nnn => exact .inl ⟨⟨nnn, rfl⟩, hraise⟩
  | ret => exact .inr (.inl ⟨rfl, hraise⟩)
  | drw x y n => exact .inr (.inr ⟨.inl ⟨x, y, n, rfl⟩, hraise⟩)
  | ldBcd x | stRegs x | ldRegs x => exact .inr (.inr ⟨.inr ⟨x, by simp⟩, hraise⟩)
  | _ => exact hraise.elim

/-! ### Every step (R361) and every list of turns (R357) -/

theorem nextTurn_cfg (s : State) : s.nextTurn.2.cfg = s.cfg := by
  cases hs : s.schedule <;> simp only [State.nextTurn, hs]

/-- Settles O17: neither the turn nor taking it off the schedule changes a parameter. -/
theorem stepKeepsParameters : Obligations.StepKeepsParameters :=
  fun s _ h => (takeTurn_cfg_schedule h).1.trans (nextTurn_cfg s)

/-- A state with another schedule, as the laws that a turn does not read its schedule speak of it. -/
theorem State.under_own_latency (s : State) (ts : List Turn) :
    s.under s.cfg.cycleLatency ts = { s with schedule := ts } :=
  rfl

/-- A turn answers the same under any schedule, and leaves it as it is. -/
theorem takeTurn_with_schedule {turn : Turn} {s t : State} (h : takeTurn turn s = .next t)
    (ts : List Turn) : takeTurn turn { s with schedule := ts } = .next { t with schedule := ts } := by
  have hcfg : t.cfg = s.cfg := (takeTurn_cfg_schedule h).1
  have hunder := (takeTurn_under s.cfg.cycleLatency ts turn s).1 t h
  rw [← State.under_own_latency s, hunder, ← hcfg, State.under_own_latency t]

section

variable {M : Host.Core} {s t : M.State}

theorem core_run_of_next (h : M.step s = .next t) (n : Nat) : M.run (n + 1) s = M.run n t := by
  simp only [Host.Core.run, h]

theorem core_run_of_fault {f : M.Fault} (h : M.step s = .fault f) (n : Nat) :
    M.run (n + 1) s = .fault f := by
  simp only [Host.Core.run, h]

end

theorem runTurns_of_next {turn : Turn} {s t : State} (h : takeTurn turn s = .next t) (ts : List Turn) :
    runTurns (turn :: ts) s = runTurns ts t := by
  simp only [runTurns, h]

theorem runTurns_of_fault {turn : Turn} {s : State} {f : Fault} (h : takeTurn turn s = .fault f)
    (ts : List Turn) : runTurns (turn :: ts) s = .fault f := by
  simp only [runTurns, h]

/-- Settles O19: each step takes the head of the list off, and the turn it takes reads no schedule. -/
theorem scheduleOrdersTurns : Obligations.ScheduleOrdersTurns := by
  intro ts
  induction ts with
  | nil =>
    intro s hnil
    show Host.Outcome.next { s with schedule := [] } = .next s
    rw [← hnil]
  | cons turn ts ih =>
    intro s hnil
    obtain ⟨-, fault_under, not_refused⟩ := takeTurn_under s.cfg.cycleLatency ts turn s
    have hstep : step { s with schedule := turn :: ts } = takeTurn turn { s with schedule := ts } :=
      step_of_cons rfl
    cases hturn : takeTurn turn s with
    | next u =>
      have hnext := hstep.trans (takeTurn_with_schedule hturn ts)
      rw [runTurns_of_next hturn]
      exact (core_run_of_next hnext _).trans (ih u ((takeTurn_cfg_schedule hturn).2.trans hnil))
    | fault f =>
      rw [runTurns_of_fault hturn]
      exact core_run_of_fault (hstep.trans (fault_under f hturn)) _
    | refused r => exact absurd hturn (not_refused r)

/-! ### The host steps (R355, R362 to R364) -/

theorem tick_unchanged (s : State) :
    UnchangedExcept { DT := true, ST := true } s (hostStep .tick s) := by
  constructor
  case DT | ST => intro h; cases h
  all_goals intros; rfl

/-- Settles O53: a host step answers in every status, and each timer goes through `tickDown`. -/
theorem tickDecrementsBothTimers : Obligations.TickDecrementsBothTimers :=
  fun s => ⟨_, takeTurn_host .tick s, tickDown_toNat s.DT, tickDown_toNat s.ST, tick_unchanged s⟩

theorem State.toneOn_iff (s : State) : s.toneOn = true ↔ s.ST.toNat ≠ 0 := by
  rw [State.toneOn, bne_iff_ne, ← BitVec.toNat_ne_iff_ne]
  rfl

/-- Settles O54: the update writes the field the keys are read from; the other two steps write nothing. -/
theorem keyUpdateSnapshotAndAudioPoll : Obligations.KeyUpdateSnapshotAndAudioPoll :=
  fun s => ⟨fun k => ⟨_, takeTurn_host (.keyUpdate k) s, fun _ => rfl, rfl⟩,
    takeTurn_host .snapshot s, fun _ _ => rfl, takeTurn_host .audioPoll s, rfl, s.toneOn_iff⟩

/-! ### A waiting engine (R358; 45_keys_timers.md R304) -/

theorem UnchangedExcept.refl (w : Writes) (s : State) : UnchangedExcept w s s := by
  constructor <;> intros <;> rfl

/-- The cycle of a waiting engine advances pc and puts it back (D19). -/
theorem State.Blocked.cycle_eq {s : State} (hs : s.Blocked) : cycle s = .next s := by
  obtain ⟨hrun, ⟨x, hdue⟩, hkeys⟩ := hs
  obtain ⟨w, hfetch, hdecode⟩ := dueInstr_eq_some.mp hdue
  have noKey : s.advance.lowestKey = none := State.lowestKey_eq_none_iff.mpr fun k => by
    simp [State.keyPressed, hkeys]
  rw [cycle_of_instr hrun hfetch hdecode, exec_ldKey_of_none noKey, advance_sub_two]
  rfl

/-- The tick apart, no turn that presses no key changes anything in a waiting engine. -/
theorem State.Blocked.takeTurn_eq {s : State} (hs : s.Blocked) {turn : Turn}
    (hreleased : ∀ k, turn = .host (.keyUpdate k) → k = 0) (hne : turn ≠ .host .tick) :
    takeTurn turn s = .next s := by
  cases turn with
  | cycle => exact hs.cycle_eq
  | host h =>
    rw [takeTurn_host]
    cases h with
    | tick => exact absurd rfl hne
    | keyUpdate k =>
      obtain ⟨-, -, hkeys⟩ := hs
      rw [hreleased k rfl, ← hkeys]
      rfl
    | snapshot | audioPoll => rfl

/-- A tick touches nothing that waiting depends on. -/
theorem State.Blocked.tick {s : State} (hs : s.Blocked) : (hostStep .tick s).Blocked :=
  hs

theorem ticksIn_cons_tick (ts : List Turn) : ticksIn (.host .tick :: ts) = ticksIn ts + 1 :=
  List.count_cons_self

theorem ticksIn_cons_of_ne {turn : Turn} (h : turn ≠ .host .tick) (ts : List Turn) :
    ticksIn (turn :: ts) = ticksIn ts :=
  List.count_cons_of_ne h

theorem tickDown_toNat_sub (b : Byte) (n : Nat) : (tickDown b).toNat - n = b.toNat - (n + 1) := by
  rw [tickDown_toNat, Nat.sub_sub, Nat.add_comm]

/-- Settles O56: only the ticks of the list change anything, and each takes both timers down by one. -/
theorem blockedEngineStillTicks : Obligations.BlockedEngineStillTicks := by
  intro ts
  induction ts with
  | nil => exact fun s hs _ => ⟨s, rfl, hs, rfl, rfl, .refl _ s⟩
  | cons turn ts ih =>
    intro s hs hreleased
    have hrest : KeysStayReleased ts := fun k hk => hreleased k (List.mem_cons_of_mem turn hk)
    by_cases hturn : turn = .host .tick
    · subst hturn
      obtain ⟨t, hrun, hblocked, hDT, hST, frame⟩ := ih _ hs.tick hrest
      rw [ticksIn_cons_tick]
      exact ⟨t, (runTurns_of_next (takeTurn_host .tick s) ts).trans hrun, hblocked,
        hDT.trans (tickDown_toNat_sub s.DT _), hST.trans (tickDown_toNat_sub s.ST _),
        (tick_unchanged s).trans frame⟩
    · have hstays : takeTurn turn s = .next s :=
        hs.takeTurn_eq (fun k hk => hreleased k (hk ▸ List.mem_cons_self)) hturn
      rw [runTurns_of_next hstays, ticksIn_cons_of_ne hturn]
      exact ih s hs hrest

/-! ### Construction (R331) -/

/-- Settles O58: at most 3584 bytes from 0x200 end at 0xFFF, so each is in memory and reads back. -/
theorem programLoadLimit : Obligations.ProgramLoadLimit := by
  refine fun c image => ⟨fun hlen => ?loads, fun hlen => if_pos hlen⟩
  case loads =>
    have hinit : State.init c image = .ok _ := State.init_eq_ok.mpr ⟨hlen, rfl⟩
    obtain ⟨-, hbyte⟩ := State.init_byte hinit
    refine ⟨_, hinit, fun k v hk => ?_⟩
    have hlt : k < image.length := (List.getElem?_eq_some_iff.mp hk).1
    rw [State.memRead_ok (show 0x200 + k ≤ topAddress by simp only [topAddress]; omega), hbyte,
      if_pos (by omega), Nat.add_sub_cancel_left, hk]
    rfl

end Sys2Proof.Machine

/-! Reset and runs over time (70_reset_and_hazards.md): what Init constructs, the timers along a list of
turns, and what a weakly fair schedule brings about. -/

namespace Sys2Proof.Machine

/-! ### Construction (R380, R382) -/

/-- Settles O60: no byte of the empty program is stored. -/
theorem resetIsInitOfEmptyProgram : Obligations.ResetIsInitOfEmptyProgram :=
  State.init_eq_ok.mpr ⟨Nat.zero_le _, rfl⟩

/-- Loading the program writes memory alone. -/
theorem State.init_only {c : Config} {image : List Byte} {s : State} (h : State.init c image = .ok s) :
    s = { State.resetWith c with mem := s.mem } := by
  obtain ⟨-, rfl⟩ := State.init_eq_ok.mp h
  exact storeImage_only image _ _

/-- Settles O16: Init keeps memory in canonical form, and the other components are those of a block without
a program. -/
theorem initMeetsInv : Obligations.InitMeetsInv := by
  intro c image s hc h
  obtain ⟨hmem, -⟩ := State.init_byte h
  obtain ⟨params, -, depth, entries, pcBound, record⟩ := resetWith_inv hc
  rw [State.init_only h] at hmem ⊢
  exact ⟨params, hmem, depth, entries, pcBound, record⟩

theorem resetByte_font (c : Config) {k : Nat} (hk : k < 80) :
    resetByte c (c.fontBase.toNat + k) = c.fontBytes[k] := by
  simp [resetByte, hk]

theorem resetByte_outside_font {c : Config} {a : Nat}
    (ha : a < c.fontBase.toNat ∨ c.fontBase.toNat + 80 ≤ a) : resetByte c a = 0 :=
  dif_neg (by omega)

theorem resetWith_reg (c : Config) (r : Reg) : (State.resetWith c).reg r = 0 := by
  simp [State.reg, State.resetWith, Vector.get_eq_getElem]

/-- Settles O59: the font ends below the program, so memory reads as at reset outside the program's own
addresses. -/
theorem initSetsEveryComponent : Obligations.InitSetsEveryComponent := by
  intro c image s hc h
  obtain ⟨-, hbyte⟩ := State.init_byte h
  refine ⟨fun k hk => ?font, fun a hfont himage => ?zero, ?components⟩
  case font => rw [hbyte, if_neg (by omega), resetByte_font c hk]
  case zero => rw [hbyte, if_neg (by omega), resetByte_outside_font hfont]
  case components =>
    rw [State.init_only h]
    exact ⟨rfl, rfl, resetWith_reg c, rfl, rfl, rfl, rfl, Display.pixel_clear, rfl, rfl⟩

/-! ### Runs, turn by turn (60_exceptions.md R357) -/

theorem runTurns_cons_eq_next {turn : Turn} {ts : List Turn} {s t : State} :
    runTurns (turn :: ts) s = .next t ↔ ∃ u, takeTurn turn s = .next u ∧ runTurns ts u = .next t := by
  simp only [runTurns]
  cases takeTurn turn s <;> simp

theorem runTurns_append_of_next {ts : List Turn} {s t : State} (h : runTurns ts s = .next t)
    (us : List Turn) : runTurns (ts ++ us) s = runTurns us t := by
  induction ts generalizing s with
  | nil => cases h; rfl
  | cons turn ts ih =>
    obtain ⟨u, hturn, hrest⟩ := runTurns_cons_eq_next.mp h
    exact (runTurns_of_next hturn _).trans (ih hrest)

theorem turnsOf_succ (σ : Nat → Turn) (n : Nat) : turnsOf σ (n + 1) = turnsOf σ n ++ [σ n] := by
  simp [turnsOf, List.range_succ]

theorem runTurns_turnsOf_succ {σ : Nat → Turn} {n : Nat} {s t : State}
    (h : runTurns (turnsOf σ n) s = .next t) :
    runTurns (turnsOf σ (n + 1)) s = takeTurn (σ n) t := by
  rw [turnsOf_succ, runTurns_append_of_next h]
  simp only [runTurns]
  cases takeTurn (σ n) t <;> rfl

/-! ### Timers count ticks (R391) -/

/-- A timer of the block: each tick takes it down, and any other turn leaves it alone, unless it is a cycle
that executes an instruction `p` names. -/
structure TimerSetBy (timer : State → Byte) (p : Instr → Prop) : Prop where
  ticked : ∀ s, timer (hostStep .tick s) = tickDown (timer s)
  kept   : ∀ {turn s t}, turn ≠ .host .tick → takeTurn turn s = .next t →
    timer t = timer s ∨ turn = .cycle ∧ ∃ i, s.dueInstr = some i ∧ p i

theorem delayTimer_setBy : TimerSetBy State.DT (fun i => ∃ x, i = .ldDt x) where
  ticked _ := rfl
  kept hne h := by
    obtain ⟨htick, -⟩ | ⟨hDT, -⟩ := takeTurn_timers h
    · exact absurd htick hne
    · exact hDT.imp_right fun ⟨hcycle, x, hdue⟩ => ⟨hcycle, _, hdue, x, rfl⟩

theorem soundTimer_setBy : TimerSetBy State.ST (fun i => ∃ x, i = .ldSt x) where
  ticked _ := rfl
  kept hne h := by
    obtain ⟨htick, -⟩ | ⟨-, hST⟩ := takeTurn_timers h
    · exact absurd htick hne
    · exact hST.imp_right fun ⟨hcycle, x, hdue⟩ => ⟨hcycle, _, hdue, x, rfl⟩

/-- Along a run that never sets it, a timer goes down by the number of ticks. -/
theorem TimerSetBy.counts_ticks {timer : State → Byte} {p : Instr → Prop} (ht : TimerSetBy timer p)
    {ts : List Turn} {s t : State} (h : runTurns ts s = .next t) (avoids : RunAvoids p ts s) :
    (timer t).toNat = (timer s).toNat - ticksIn ts := by
  induction ts generalizing s with
  | nil => cases h; rfl
  | cons turn ts ih =>
    obtain ⟨u, hturn, hrun⟩ := runTurns_cons_eq_next.mp h
    obtain ⟨notSet, havoids⟩ := avoids
    have hrest := ih hrun (havoids u hturn)
    by_cases hne : turn = .host .tick
    · subst hne
      cases hturn
      rw [hrest, ht.ticked, tickDown_toNat_sub, ticksIn_cons_tick]
    · obtain heq | ⟨hcycle, i, hdue, hp⟩ := ht.kept hne hturn
      · rw [hrest, heq, ticksIn_cons_of_ne hne]
      · exact absurd hp (notSet hcycle i hdue)

/-- Settles O55: both timers are taken down by ticks alone. -/
theorem timersCountTicksNotCycles : Obligations.TimersCountTicksNotCycles :=
  fun _ _ _ h => ⟨delayTimer_setBy.counts_ticks h, soundTimer_setBy.counts_ticks h⟩

/-! ### Ticks without end (60_exceptions.md R357, D25) -/

theorem ticksIn_turnsOf_mono (σ : Nat → Turn) {m n : Nat} (h : m ≤ n) :
    ticksIn (turnsOf σ m) ≤ ticksIn (turnsOf σ n) :=
  ((List.range_sublist.mpr h).map σ).count_le _

/-- A schedule whose ticks never stop holds any number of them from some turn on. -/
theorem ticksIn_turnsOf_unbounded {σ : Nat → Turn} (hticks : ∀ n, ∃ m, n ≤ m ∧ σ m = .host .tick)
    (v : Nat) : ∃ n, ∀ m, n ≤ m → v ≤ ticksIn (turnsOf σ m) := by
  induction v with
  | zero => exact ⟨0, fun _ _ => Nat.zero_le _⟩
  | succ v ih =>
    obtain ⟨n, hn⟩ := ih
    obtain ⟨k, hk, htick⟩ := hticks n
    refine ⟨k + 1, fun m hm => ?_⟩
    calc v + 1
      _ ≤ ticksIn (turnsOf σ k) + 1 := Nat.succ_le_succ (hn k hk)
      _ = ticksIn (turnsOf σ (k + 1)) := by simp [turnsOf_succ, htick, ticksIn]
      _ ≤ ticksIn (turnsOf σ m) := ticksIn_turnsOf_mono σ hm

/-- A byte is at most 255, so that many ticks take a timer to 0. -/
theorem timer_eq_zero {v w : Byte} {n : Nat} (hcount : w.toNat = v.toNat - n) (hn : 255 ≤ n) : w = 0 := by
  have hv := v.isLt
  exact BitVec.eq_of_toNat_eq (by rw [hcount]; exact Nat.sub_eq_zero_of_le (by omega))

/-! ### Runs of a halted engine (R359, D26) -/

/-- No cycle is enabled after a halt, so a run holds host steps alone: the record stays, and no instruction
is executed. -/
theorem runTurns_of_halted {ts : List Turn} {s t : State} {r : HaltRecord}
    (hs : s.status = .halted r) (h : runTurns ts s = .next t) :
    t.status = .halted r ∧ ∀ p, RunAvoids p ts s := by
  induction ts generalizing s with
  | nil => cases h; exact ⟨hs, fun _ => trivial⟩
  | cons turn ts ih =>
    obtain ⟨u, hturn, hrun⟩ := runTurns_cons_eq_next.mp h
    cases turn with
    | cycle => rw [takeTurn_cycle, cycle_of_halted hs] at hturn; cases hturn
    | host hstep =>
      rw [takeTurn_host] at hturn
      cases hturn
      have hhalted : (hostStep hstep s).status = .halted r := by
        rw [hostStep_writes_timers_keys]; exact hs
      obtain ⟨hstatus, havoids⟩ := ih hhalted hrun
      refine ⟨hstatus, fun p => ⟨nofun, fun v hv => ?_⟩⟩
      cases hv
      exact havoids p

/-! ### A key held while FX0A waits (45_keys_timers.md R304, D19) -/

/-- The next cycle completes an FX0A at address `a`: the engine runs, the word at pc is FX0A and some key is
pressed. -/
structure State.KeyReady (s : State) (x : Reg) (a : Word) : Prop where
  running : s.status = .running
  due     : s.dueInstr = some (.ldKey x)
  pressed : s.keys ≠ 0
  at_pc   : s.pc = a

theorem State.keys_eq_zero_of_lowestKey {s : State} (h : s.lowestKey = none) : s.keys = 0 :=
  BitVec.eq_of_getLsbD_eq fun k hk => by
    simpa [State.keyPressed] using State.lowestKey_eq_none_iff.mp h ⟨k, hk⟩

theorem State.KeyReady.cycle_completes {s : State} {x : Reg} {a : Word} (hs : s.KeyReady x a) :
    ∃ t, cycle s = .next t ∧ t.status = .running ∧ t.pc = a + 2 := by
  obtain ⟨hrun, hdue, hkeys, rfl⟩ := hs
  obtain ⟨w, hfetch, hdecode⟩ := dueInstr_eq_some.mp hdue
  obtain ⟨k, hk⟩ := Option.ne_none_iff_exists'.mp
    (mt (State.keys_eq_zero_of_lowestKey (s := s.advance)) hkeys)
  exact ⟨_, (cycle_of_instr hrun hfetch hdecode).trans (exec_ldKey_of_some hk x), hrun, rfl⟩

/-- A host step that leaves a key pressed keeps FX0A ready to complete. -/
theorem State.KeyReady.host {s : State} {x : Reg} {a : Word} (hs : s.KeyReady x a) {h : HostStep}
    (hheld : ∀ k, h = .keyUpdate k → k ≠ 0) : (hostStep h s).KeyReady x a := by
  obtain ⟨hrun, hdue, hkeys, hpc⟩ := hs
  cases h with
  | keyUpdate k => exact ⟨hrun, hdue, hheld k rfl, hpc⟩
  | tick | snapshot | audioPoll => exact ⟨hrun, hdue, hkeys, hpc⟩

section

variable {σ : Nat → Turn} {s : State} {x : Reg} {a : Word} (hs : s.KeyReady x a)
  (hheld : ∀ n k, σ n = .host (.keyUpdate k) → k ≠ 0)

include hs hheld

/-- Before the first cycle of the schedule FX0A stays ready to complete. -/
theorem State.KeyReady.before_cycle {n : Nat} (hno : ∀ m < n, σ m ≠ .cycle) :
    ∃ t, runTurns (turnsOf σ n) s = .next t ∧ t.KeyReady x a := by
  induction n with
  | zero => exact ⟨s, rfl, hs⟩
  | succ n ih =>
    obtain ⟨t, hrun, hready⟩ := ih fun m hm => hno m (Nat.lt_succ_of_lt hm)
    rw [runTurns_turnsOf_succ hrun]
    cases hturn : σ n with
    | cycle => exact absurd hturn (hno n (Nat.lt_succ_self n))
    | host h => exact ⟨_, takeTurn_host h t, hready.host fun k hk => hheld n k (hk ▸ hturn)⟩

/-- Fairness brings a cycle: without one the engine would run for ever. -/
theorem State.KeyReady.cycle_comes (hfair : WeaklyFair σ s) : ∃ n, σ n = .cycle := by
  by_contra hnever
  have noCycle : ∀ n, σ n ≠ .cycle := not_exists.mp hnever
  obtain ⟨-, hcycles⟩ := hfair
  obtain ⟨n, -, hn⟩ := hcycles 0 fun m _ => by
    obtain ⟨t, hrun, hready⟩ := hs.before_cycle hheld fun m _ => noCycle m
    exact ⟨t, hrun, hready.running⟩
  exact noCycle n hn

/-- The first cycle of a fair schedule completes FX0A. -/
theorem State.KeyReady.completes (hfair : WeaklyFair σ s) :
    ∃ n t, runTurns (turnsOf σ n) s = .next t ∧ t.status = .running ∧ t.pc = a + 2 := by
  have hcomes := hs.cycle_comes hheld hfair
  obtain ⟨t, hrun, hready⟩ := hs.before_cycle hheld fun _ hm => Nat.find_min hcomes hm
  obtain ⟨u, hcycle, hdone⟩ := hready.cycle_completes
  exact ⟨Nat.find hcomes + 1, u,
    by rw [runTurns_turnsOf_succ hrun, Nat.find_spec hcomes, takeTurn_cycle, hcycle], hdone⟩

end

/-! ### Progress under a weakly fair schedule (R389) -/

/-- Settles O57: 255 ticks take both timers of a waiting or halted engine to 0, and the first cycle
completes an FX0A while a key is held. -/
theorem fairScheduleProgress : Obligations.FairScheduleProgress := by
  intro σ s hfair
  have ⟨hticks, _⟩ := hfair
  obtain ⟨n, hn⟩ := ticksIn_turnsOf_unbounded hticks 255
  refine ⟨fun hs hreleased => ⟨n, fun m hm => ?waiting⟩, fun r hs hrun => ⟨n, fun m hm => ?halted⟩,
    fun x hrun hdue hkeys hheld => ?held⟩
  case waiting =>
    obtain ⟨t, hrun, hblocked, hDT, hST, -⟩ := blockedEngineStillTicks _ s hs (hreleased m)
    exact ⟨t, hrun, hblocked, timer_eq_zero hDT (hn m hm), timer_eq_zero hST (hn m hm)⟩
  case halted =>
    obtain ⟨t, hrun⟩ := hrun m
    obtain ⟨hstatus, havoids⟩ := runTurns_of_halted hs hrun
    obtain ⟨hDT, hST⟩ := timersCountTicksNotCycles _ s t hrun
    exact ⟨t, hrun, hstatus, timer_eq_zero (hDT (havoids _)) (hn m hm),
      timer_eq_zero (hST (havoids _)) (hn m hm)⟩
  case held =>
    have hready : s.KeyReady x s.pc := ⟨hrun, hdue, hkeys, rfl⟩
    exact hready.completes hheld hfair

end Sys2Proof.Machine
